-- ==== Sys2Proof/Word.lean ====
section
/-! DEFINITION. The two bit-vector widths the core stores: an 8-bit byte (V registers, timers, memory cells) and a
16-bit word (opcode, I, PC, stack slots). R10 of spec/00_scope.md gives the widths; every value is unsigned. -/

namespace Sys2Proof

/-- A V register, a timer or a memory byte (R10, R20, R29, R30, R34). -/
abbrev Byte := BitVec 8

/-- An opcode, I, PC or a stack slot (R10, R23, R24, R27, R70). -/
abbrev Word := BitVec 16

end Sys2Proof
end

