-- ==== Sys2Proof/Config.lean ====
section
/-! DEFINITION. The implementation parameters of R7 (spec/00_scope.md) and the free inputs of R8: the random byte of
`Cxnn` and the key choice of `Fx0A`. The third parameter of R8, FONT, is an argument: its type and its
default stand in Machine/Font.lean. -/

namespace Sys2Proof.Config

/-- `MEM_SIZE` of R7: addresses 0..4095. -/
abbrev memSize : Nat := 4096

/-- `FONT_LEN` of R7: 16 glyphs of 5 bytes, from address 0. -/
abbrev fontLen : Nat := 80

/-- `GLYPH_BYTES` of R7. -/
abbrev glyphBytes : Nat := 5

/-- `PROG_BASE` of R7: where ROM load starts and where PC stands after reset. -/
abbrev progBase : Nat := 0x200

/-- `ROM_MAX` of R7: 4096 - 0x200. -/
abbrev romMax : Nat := 3584

/-- `STACK_DEPTH` of R7. -/
abbrev stackDepth : Nat := 16

/-- `DISP_W` of R7: pixel columns. -/
abbrev dispW : Nat := 64

/-- `DISP_H` of R7: pixel rows. -/
abbrev dispH : Nat := 32

/-- `NKEYS` of R7. -/
abbrev nKeys : Nat := 16

/-- `randByte` of R8: the byte the n-th draw gives. It has no body: R171 gives no generator, seed or distribution, so
nothing can be proved of its value (DESIGN CHOICE, log entry 3). -/
opaque randByte : Nat → Byte

/-- `chooseKey` of R8: which member of the list of pressed keys the n-th draw takes, read modulo the list's length. It has
no body: R206 admits every pressed key (DESIGN CHOICE, log entry 4). -/
opaque keyChoice : Nat → Nat

end Sys2Proof.Config
end

