-- ==== Sys2Proof/Machine/Font.lean ====
section
/-! DEFINITION. The parameter `FONT` of R8: 80 bytes, of which the spec's source gives the place and the size (R51) and not the
values. Every definition takes them as an argument. The default is that of decision D14 (spec/92_eei_decisions.md), the
conventional CHIP-8 font, which the spec marks as general knowledge (PRESUMED, log entry 6). -/

namespace Sys2Proof.Machine

/-- `FONT : Array 80 UInt8` of R8. Glyph d stands at d * 5, five bytes a glyph (R51). -/
abbrev Font := Vector Byte Config.fontLen

/-- Glyphs 0 to F of the default font (D14). -/
def defaultGlyphs : List (List Byte) :=
  [[0xF0, 0x90, 0x90, 0x90, 0xF0], [0x20, 0x60, 0x20, 0x20, 0x70],
   [0xF0, 0x10, 0xF0, 0x80, 0xF0], [0xF0, 0x10, 0xF0, 0x10, 0xF0]] ++
  [[0x90, 0x90, 0xF0, 0x10, 0x10], [0xF0, 0x80, 0xF0, 0x10, 0xF0],
   [0xF0, 0x80, 0xF0, 0x90, 0xF0], [0xF0, 0x10, 0x20, 0x40, 0x40]] ++
  [[0xF0, 0x90, 0xF0, 0x90, 0xF0], [0xF0, 0x90, 0xF0, 0x10, 0xF0],
   [0xF0, 0x90, 0xF0, 0x90, 0x90], [0xE0, 0x90, 0xE0, 0x90, 0xE0]] ++
  [[0xF0, 0x80, 0x80, 0x80, 0xF0], [0xE0, 0x90, 0x90, 0x90, 0xE0],
   [0xF0, 0x80, 0xF0, 0x80, 0xF0], [0xF0, 0x80, 0xF0, 0x80, 0x80]]

/-- The default of the parameter FONT (D14). -/
def defaultFont : Font := ⟨⟨defaultGlyphs.flatten⟩, by decide⟩

end Sys2Proof.Machine
end

