-- ==== Sys2Proof/Machine/Memory.lean ====
section
/-! DEFINITION. The 4096-byte memory (R34, R50, spec/20_memory.md) as a list of (address, byte) pairs in one canonical form:
addresses strictly rising, all below 4096, no entry equal to what an unlisted address reads as. -/

namespace Sys2Proof.Machine

/-- Memory as plain data: the bytes that differ from their value after reset. -/
abbrev Memory := List Host.Cell

/-- What an address not listed reads as: its contents after `initialize`, FONT in 0..79 and zero above (R40, R51). -/
def Memory.unlisted (font : Font) (a : Nat) : Byte := if h : a < Config.fontLen then font.get ⟨a, h⟩ else 0

/-- `MemRead(a, 1)` of R11: the byte at an address. -/
def Memory.read (font : Font) : Memory → Nat → Byte
  | [], a => Memory.unlisted font a
  | c :: rest, a => if c.1 = a then c.2 else Memory.read font rest a

/-- Drop an address's entry. -/
def Memory.unlist (m : Memory) (a : Nat) : Memory := m.filter fun c => c.1 != a

/-- Put an entry in its place by address. -/
def Memory.enlist : Memory → Nat → Byte → Memory
  | [], a, b => [(a, b)]
  | c :: rest, a, b => if a < c.1 then (a, b) :: c :: rest else c :: Memory.enlist rest a b

/-- `MemWrite(a, 1, b)` of R11: store a byte; storing the unlisted value removes the entry, so the form stays canonical. -/
def Memory.write (font : Font) (m : Memory) (a : Nat) (b : Byte) : Memory :=
  if b = Memory.unlisted font a then m.unlist a else (m.unlist a).enlist a b

/-- The canonical form: rising addresses inside the address space, no entry that an unlisted address would read as. -/
abbrev Memory.wf (font : Font) (m : Memory) : Prop :=
  m.Pairwise (fun c d => c.1 < d.1) ∧ ∀ c ∈ m, c.1 < Config.memSize ∧ c.2 ≠ Memory.unlisted font c.1

end Sys2Proof.Machine
end

