-- ==== Sys2Proof/Machine/State.lean ====
section
/-! DEFINITION. The machine's state (spec/10_state.md), its value after `initialize` (R40, R250), the result a step reports
(R98) and the reasons a step or a host call can stop. -/

namespace Sys2Proof.Machine

/-- The hard errors of a step (`ErrKind` of R98). -/
inductive ErrKind where
  /-- An address, or a key index, out of range (R91, R183-R185, R202). -/
  | outOfBounds
  /-- `2nnn` with SP = 16 (R132). -/
  | stackOverflow
  /-- `00EE` with SP = 0 (R131). -/
  | stackUnderflow
deriving DecidableEq, Repr

/-- What a hard error carries (`Info` of R98): the fetched opcode (absent for a fetch error) and one address. -/
structure Info where
  op : Option Word
  addr : Option Nat
deriving DecidableEq, Repr

/-- The recoverable conditions of a step (`Diag` of R97 and R98). -/
inductive Diag where
  /-- A word that matches no row of the opcode table (R95). -/
  | unknownOpcode (op : Word)
  /-- A sprite row past the end of memory (R112). -/
  | outOfBounds (addr : Nat)
deriving DecidableEq, Repr

/-- What one call of `step` returns (`StepResult` of R98). -/
inductive StepResult where
  | ok (diag : Option Diag)
  | err (kind : ErrKind) (info : Info)
deriving DecidableEq, Repr

/-- Everything the spec gives the machine (R20-R40), its parameter FONT (R8), and two fields of the model's own, `draws` and
`result`. -/
@[ext]
structure State where
  /-- V0..VF, with VF = V[15] also the flag register (R20, R22). -/
  v : Vector Byte 16
  /-- I (R23). -/
  index : Word
  /-- PC (R24). -/
  pc : Word
  /-- The 16 return-address slots (R27). -/
  stack : Vector Word 16
  /-- SP, an integer in 0..16 (R28). -/
  sp : Fin 17
  /-- The delay timer (R29). -/
  delay : Byte
  /-- The sound timer (R30). -/
  sound : Byte
  /-- The display, `disp[py][px]`: 32 rows of 64 one-bit pixels (R31). -/
  disp : Vector (Vector Bool 64) 32
  /-- The display-changed flag (R32). -/
  changed : Bool
  /-- The keypad, `keys[k]` true when pressed (R33). -/
  keys : Vector Bool 16
  /-- The 4096 bytes of memory (R34). -/
  mem : Memory
  /-- The parameter FONT of R8: fixed for one machine, changed by no instruction and no host call (log entry 6). -/
  font : Font
  /-- The model's own: how many free values have been drawn (log entries 3 to 5). -/
  draws : Nat
  /-- The model's own: what the last call of `step` returned (R98), an output no later step reads (log entry 1). -/
  result : StepResult
deriving DecidableEq, Repr

/-- A display with every pixel 0. -/
def blankDisplay : Vector (Vector Bool 64) 32 := Vector.replicate 32 (Vector.replicate 64 false)

/-- The state `initialize` leaves on a core with this font, from any state before (R8, R40, R250, R251). `draws` and `result`
are the model's own and their values here are DESIGN CHOICE (log entries 1 and 5). -/
def State.resetWith (font : Font) : State where
  v := Vector.replicate 16 0
  index := 0
  pc := 0x200
  stack := Vector.replicate 16 0
  sp := 0
  delay := 0
  sound := 0
  disp := blankDisplay
  changed := false
  keys := Vector.replicate 16 false
  mem := []
  font := font
  draws := 0
  result := .ok none

/-- The state after `initialize` with the default font (D14; PRESUMED, log entry 6). -/
def State.reset : State := State.resetWith defaultFont

/-- The conditions that stop the machine: none. R96 and R223 have every error returned to the caller of `step` with the
machine able to go on ("The core has no halted state"), so a hard error is a next state whose `result` reports it. Nobody
raises a fault; that is exact, neither safe nor unsafe. -/
inductive Fault where
deriving DecidableEq, Repr

/-- Why the model gives no meaning. -/
inductive Refusal where
  /-- An instruction with no meaning in `exec`. Raised by no arm: every instruction has its meaning. Safe. -/
  | notModelled (mnemonic : String)
  /-- A host call other than `initialize` before the first `initialize`: R256 leaves that state unspecified and has a model
  refuse the call. Raised by `Session.call` only. Safe. -/
  | beforeInit
  /-- `pixelAt` outside 64 by 32: R236 puts it outside the interface. Raised by `Session.call` only. Safe. -/
  | pixelOutsideDisplay (px py : Nat)
deriving DecidableEq, Repr

/-- The outcome of an instruction or a step. -/
abbrev StepOutcome := Host.Outcome State Fault Refusal

end Sys2Proof.Machine
end

