-- ==== Sys2Proof/Machine/Flags.lean ====
section
/-! DEFINITION. The flag computations (R152, R160-R165 of spec/43_alu.md): each gives the byte 0 or 1 that VF receives. -/

namespace Sys2Proof.Machine

/-- `(p)`: 1 if p holds, 0 otherwise (R166). -/
def flagByte (p : Bool) : Byte := if p then 1 else 0

/-- Carry of `8xy4`: 1 iff a + b > 255 (R160). -/
def carryFlag (a b : Byte) : Byte := flagByte (decide (a.toNat + b.toNat > 255))

/-- No borrow of a - b: 1 iff a >= b, equality counting as no borrow (R161, R162). -/
def noBorrowFlag (a b : Byte) : Byte := flagByte (decide (a.toNat ≥ b.toNat))

/-- The bit `8xy6` shifts out: bit 0 (R163). -/
def shiftOutRight (a : Byte) : Byte := a &&& 1

/-- The bit `8xyE` shifts out: bit 7 (R165). -/
def shiftOutLeft (a : Byte) : Byte := (a >>> 7) &&& 1

end Sys2Proof.Machine
end

