-- ==== Sys2Proof/Syntax.lean ====
section
/-! DEFINITION. The instructions as syntax: one constructor per row of spec/opcode_table.json (R75 of
spec/30_encoding.md), with the operand fields R71 and R72 give its format. -/

namespace Sys2Proof

/-- A register number, the opcode field x or y. Every 4-bit value names a register, so none is out of range (R20, R73). -/
abbrev Reg := Fin 16

/-- The 34 instructions of R75, in the table's order. `nn` is the 8-bit immediate, `nnn` the 12-bit address, `n` the row
count of `Dxyn` (R73). `shr` and `shl` keep the y field, which their rules ignore, so that no bit of a word is lost. -/
inductive Instr where
  /-- `00E0` CLS: clear the display (R111). -/
  | cls
  /-- `00EE` RET: return from subroutine (R131). -/
  | ret
  /-- `1nnn` JP nnn (R130). -/
  | jp (nnn : BitVec 12)
  /-- `2nnn` CALL nnn (R132). -/
  | call (nnn : BitVec 12)
  /-- `3xnn` SE Vx, nn: skip if equal (R133). -/
  | seImm (x : Reg) (nn : Byte)
  /-- `4xnn` SNE Vx, nn: skip if not equal (R134). -/
  | sneImm (x : Reg) (nn : Byte)
  /-- `5xy0` SE Vx, Vy: skip if registers equal (R135). -/
  | seReg (x y : Reg)
  /-- `6xnn` LD Vx, nn (R150). -/
  | ldImm (x : Reg) (nn : Byte)
  /-- `7xnn` ADD Vx, nn: no flag (R151). -/
  | addImm (x : Reg) (nn : Byte)
  /-- `8xy0` LD Vx, Vy (R155). -/
  | ldReg (x y : Reg)
  /-- `8xy1` OR Vx, Vy (R156). -/
  | orReg (x y : Reg)
  /-- `8xy2` AND Vx, Vy (R157). -/
  | andReg (x y : Reg)
  /-- `8xy3` XOR Vx, Vy (R158). -/
  | xorReg (x y : Reg)
  /-- `8xy4` ADD Vx, Vy: VF = carry (R160). -/
  | addReg (x y : Reg)
  /-- `8xy5` SUB Vx, Vy: VF = no borrow (R161). -/
  | sub (x y : Reg)
  /-- `8xy6` SHR Vx: VF = old bit 0; y ignored (R163). -/
  | shr (x y : Reg)
  /-- `8xy7` SUBN Vx, Vy: VF = no borrow (R162). -/
  | subn (x y : Reg)
  /-- `8xyE` SHL Vx: VF = old bit 7; y ignored (R165). -/
  | shl (x y : Reg)
  /-- `9xy0` SNE Vx, Vy: skip if registers differ (R136). -/
  | sneReg (x y : Reg)
  /-- `Annn` LD I, nnn (R180). -/
  | ldI (nnn : BitVec 12)
  /-- `Bnnn` JP V0, nnn (R137). -/
  | jpV0 (nnn : BitVec 12)
  /-- `Cxnn` RND Vx, nn: random byte AND mask (R171). -/
  | rnd (x : Reg) (nn : Byte)
  /-- `Dxyn` DRW Vx, Vy, n: draw an n-row sprite (R112). -/
  | drw (x y : Reg) (n : Nat)
  /-- `Ex9E` SKP Vx: skip if the key is pressed (R200). -/
  | skp (x : Reg)
  /-- `ExA1` SKNP Vx: skip if the key is not pressed (R201). -/
  | sknp (x : Reg)
  /-- `Fx07` LD Vx, DT (R204). -/
  | ldVxDt (x : Reg)
  /-- `Fx0A` LD Vx, K: wait for a key (R206). -/
  | ldVxK (x : Reg)
  /-- `Fx15` LD DT, Vx (R205). -/
  | ldDtVx (x : Reg)
  /-- `Fx18` LD ST, Vx (R207). -/
  | ldStVx (x : Reg)
  /-- `Fx1E` ADD I, Vx: no flag (R181). -/
  | addIVx (x : Reg)
  /-- `Fx29` LD F, Vx: I = the glyph of Vx (R182). -/
  | ldFVx (x : Reg)
  /-- `Fx33` LD B, Vx: store BCD digits (R183). -/
  | ldBVx (x : Reg)
  /-- `Fx55` LD [I], Vx: store V0..Vx (R184). -/
  | ldMemVx (x : Reg)
  /-- `Fx65` LD Vx, [I]: load V0..Vx (R185). -/
  | ldVxMem (x : Reg)
deriving DecidableEq, Repr

end Sys2Proof
end

