-- ==== Sys2Proof/Machine/Ops.lean ====
section
/-! DEFINITION. The named operations over the state that meanings are written with: registers, memory, the call stack, the
display, the keypad, the free draws, fetching, and how a step reports an error (R96, R97 of spec/40_step.md). The core has no
trap entry and no return from one (R223): raising a hard error is `State.raise`, and going on is the next call of `step`. -/

namespace Sys2Proof.Machine

/-! ### Registers -/

/-- VF, the flag register V[15] (R22). -/
abbrev regF : Reg := 15

/-- `V[r]` (R11, R20). -/
def State.getV (s : State) (r : Reg) : Byte := s.v.get r

/-- `V[r] <- b` (R11, R20). -/
def State.setV (s : State) (r : Reg) (b : Byte) : State := { s with v := s.v.set r.val b r.isLt }

/-- `I <- w` (R23: no check applies when I is written). -/
def State.setI (s : State) (w : Word) : State := { s with index := w }

/-- `PC <- w` (R24). -/
def State.setPc (s : State) (w : Word) : State := { s with pc := w }

/-- `delay <- b` (R29). -/
def State.setDelay (s : State) (b : Byte) : State := { s with delay := b }

/-- `sound <- b` (R30). -/
def State.setSound (s : State) (b : Byte) : State := { s with sound := b }

/-- `changed <- b` (R32). -/
def State.setChanged (s : State) (b : Bool) : State := { s with changed := b }

/-- `skip`: PC <- PC + 2 on the PC the fetch already advanced (R11). -/
def State.skip (s : State) : State := s.setPc (s.pc + 2)

/-- Skip when a condition holds (R133-R136, R200, R201). -/
def State.skipIf (s : State) (c : Bool) : State := if c then s.skip else s

/-! ### Memory (R53, R56: every access is one byte, its range checked before) -/

/-- `MemRead(a, 1)`. -/
def State.memRead (s : State) (a : Nat) : Byte := s.mem.read s.font a

/-- `MemWrite(a, 1, b)`. -/
def State.memWrite (s : State) (a : Nat) (b : Byte) : State := { s with mem := s.mem.write s.font a b }

/-- The bound of R53 on an address computed as an unbounded natural. -/
def outsideMemory (a : Nat) : Bool := decide (a ≥ Config.memSize)

/-- Store bytes at rising addresses. -/
def State.writeBytes (s : State) (a : Nat) : List Byte → State
  | [] => s
  | b :: rest => (s.memWrite a b).writeBytes (a + 1) rest

/-! ### Errors and diagnostics (R96, R97) -/

/-- `raise E(info)`: the result is the hard error; nothing else changes, so PC keeps the default advance (R96, D10, log
entry 2). -/
def State.raise (s : State) (kind : ErrKind) (op : Option Word) (addr : Option Nat) : State :=
  { s with result := .err kind ⟨op, addr⟩ }

/-- `diag E(info)`: the result carries the diagnostic and the instruction's other effects still happen (R97). -/
def State.diagnose (s : State) (d : Diag) : State := { s with result := .ok (some d) }

/-! ### Call stack (R27, R28) -/

/-- Push a return address; `none` when SP = 16 (R132). -/
def State.push (s : State) (w : Word) : Option State :=
  if h : s.sp.val < Config.stackDepth then
    some { s with stack := s.stack.set s.sp.val w h, sp := ⟨s.sp.val + 1, Nat.succ_lt_succ h⟩ }
  else none

/-- Pop the last return address, leaving its slot as it is; `none` when SP = 0 (R131). -/
def State.pop (s : State) : Option (Word × State) :=
  if h : 0 < s.sp.val then
    some (s.stack.get ⟨s.sp.val - 1, by omega⟩, { s with sp := ⟨s.sp.val - 1, by omega⟩ })
  else none

/-! ### Display (R31) -/

/-- `disp[py][px]`. -/
def State.pixel (s : State) (px : Fin 64) (py : Fin 32) : Bool := (s.disp.get py).get px

/-- `disp[py][px] <- b`. -/
def State.setPixel (s : State) (px : Fin 64) (py : Fin 32) (b : Bool) : State :=
  { s with disp := s.disp.set py.val ((s.disp.get py).set px.val b px.isLt) py.isLt }

/-- Every pixel 0 (R111). -/
def State.clearDisplay (s : State) : State := { s with disp := blankDisplay }

/-- The column of bit position b: (cx + b) mod 64 (R110). -/
def spriteCol (cx b : Nat) : Fin 64 := ⟨(cx + b) % Config.dispW, Nat.mod_lt _ (by decide)⟩

/-- The row of sprite row r: (cy + r) mod 32 (R110). -/
def spriteRow (cy r : Nat) : Fin 32 := ⟨(cy + r) % Config.dispH, Nat.mod_lt _ (by decide)⟩

/-- One set sprite bit on a pixel: VF = 1 if the pixel is on, then the pixel is XORed with 1 (R112). -/
def State.flipPixel (s : State) (px : Fin 64) (py : Fin 32) : State :=
  if s.pixel px py then (s.setV regF 1).setPixel px py false else s.setPixel px py true

/-- The bits b, b+1, .. (as many as `count`) of one sprite row, most significant bit first (R110, R112). -/
def State.drawBits (s : State) (cx : Nat) (py : Fin 32) (row : Byte) (b : Nat) : (count : Nat) → State
  | 0 => s
  | count + 1 =>
    (if row.getLsbD (7 - b) then s.flipPixel (spriteCol cx b) py else s).drawBits cx py row (b + 1) count

/-- The sprite rows r, r+1, .. (as many as `count`), stopping with a diagnostic at the first row past memory (R112). -/
def State.drawRows (s : State) (cx cy r : Nat) : (count : Nat) → State
  | 0 => s
  | count + 1 =>
    if outsideMemory (s.index.toNat + r) then s.diagnose (.outOfBounds (s.index.toNat + r))
    else (s.drawBits cx (spriteRow cy r) (s.memRead (s.index.toNat + r)) 0 8).drawRows cx cy (r + 1) count

/-! ### Keypad and free draws (R33, R37) -/

/-- `keys[k]`. -/
def State.key (s : State) (k : Fin 16) : Bool := s.keys.get k

/-- `keys[k] <- pressed`. -/
def State.setKeyBit (s : State) (k : Fin 16) (pressed : Bool) : State :=
  { s with keys := s.keys.set k.val pressed k.isLt }

/-- The set S of R206: the indices of the pressed keys. -/
def State.pressedKeys (s : State) : List (Fin 16) := (List.finRange 16).filter s.key

/-- Count a draw, so that the next one reads a fresh free value. -/
def State.nextDraw (s : State) : State := { s with draws := s.draws + 1 }

/-- `draw randByte` (R11, R171): a free byte and the state after the draw. -/
def State.drawByte (s : State) : Byte × State := (Config.randByte s.draws, s.nextDraw)

/-- `draw chooseKey(S)` (R11, R206): `none` for an empty S, its member for a set of one, and a free choice of a member
otherwise. -/
def State.drawKey (s : State) : Option (Fin 16 × State) :=
  match s.pressedKeys with
  | [] => none
  | [k] => some (k, s)
  | k :: l :: rest =>
    some ((k :: l :: rest)[Config.keyChoice s.draws % (rest.length + 2)]'(Nat.mod_lt _ (by omega)), s.nextDraw)

/-! ### Fetch (R91, R92) -/

/-- The opcode at PC, big-endian (R54); `none` when PC + 1 >= 4096. -/
def State.fetchWord (s : State) : Option Word :=
  if outsideMemory (s.pc.toNat + 1) then none
  else some (wordOf (s.memRead s.pc.toNat) (s.memRead (s.pc.toNat + 1)))

/-- What a successful fetch does before dispatch: PC advances by 2 (R92) and the step's result starts as `Ok(none)` (R98). -/
def State.advance (s : State) : State := { s with pc := s.pc + 2, result := .ok none }

/-- A failed fetch: a hard error that changes nothing, not even PC (R91). -/
def fetchError (s : State) : StepOutcome := .next (s.raise .outOfBounds none (some s.pc.toNat))

/-- An unknown opcode: a diagnostic, and a no-op after the default advance (R95). -/
def unknownOpcode (op : Word) (s : State) : StepOutcome := .next (s.diagnose (.unknownOpcode op))

/-- Store a table word's two bytes where the next fetch reads them (R54); a PC no fetch can use is left alone. -/
def State.placeWord (s : State) (w : Word) : State :=
  if outsideMemory (s.pc.toNat + 1) then s
  else s.writeBytes s.pc.toNat [highByte w, lowByte w]

end Sys2Proof.Machine
end

