-- ==== Sys2Proof/Machine/Operands.lean ====
section
/-! DEFINITION. The operand forms (R73 of spec/30_encoding.md, spec/44_index_memory.md): zero-extended immediates, the one
addressing mode I + k, register blocks, key indices and BCD digits. -/

namespace Sys2Proof.Machine

/-- `zext_16` of a 12-bit address (R73). -/
def zextAddr (nnn : BitVec 12) : Word := nnn.setWidth 16

/-- `zext_16` of a byte (R11, R73). -/
def zextByte (b : Byte) : Word := b.setWidth 16

/-- The effective address I + k as an unbounded natural (spec/44_index_memory.md, R53). -/
def State.effAddr (s : State) (k : Nat) : Nat := s.index.toNat + k

/-- The registers of the block V0..Vx in rising order (R184, R185). -/
def regBlock (x : Reg) : List Reg := (List.finRange 16).filter (fun r => decide (r ≤ x))

/-- Store the registers of a list at I + their number (R184). -/
def State.storeRegs (s : State) : List Reg → State
  | [] => s
  | r :: rest => (s.memWrite (s.effAddr r.val) (s.getV r)).storeRegs rest

/-- Load the registers of a list from I + their number (R185). -/
def State.loadRegs (s : State) : List Reg → State
  | [] => s
  | r :: rest => (s.setV r (s.memRead (s.effAddr r.val))).loadRegs rest

/-- The post-increment I <- I + x + 1 (R184, R185). -/
def State.bumpIndex (s : State) (x : Reg) : State := s.setI (s.index + BitVec.ofNat 16 (x.val + 1))

/-- The key index check of R202: V[x] as an index 0..15, or `none` from 16 up. -/
def keyIndex (b : Byte) : Option (Fin 16) := if h : b.toNat < 16 then some ⟨b.toNat, h⟩ else none

/-- The hundreds digit of a byte (R183). -/
def bcdHundreds (v : Byte) : Byte := BitVec.ofNat 8 (v.toNat / 100)

/-- The tens digit of a byte (R183). -/
def bcdTens (v : Byte) : Byte := BitVec.ofNat 8 (v.toNat / 10 % 10)

/-- The ones digit of a byte (R183). -/
def bcdOnes (v : Byte) : Byte := BitVec.ofNat 8 (v.toNat % 10)

/-- The address of glyph d as a word: d * 5, not masked to a digit (R182). -/
def glyphAddr (d : Byte) : Word := zextByte d * 5

end Sys2Proof.Machine
end

