-- ==== Sys2Proof/Machine/Alu.lean ====
section
/-! DEFINITION. Register loads, arithmetic, logic, shifts and random (spec/43_alu.md). The flag-producing meanings run their
rule's statements in order, so when x or y is 15 a later statement reads the VF an earlier one wrote (R153, decision D5, log
entry 14). -/

namespace Sys2Proof.Machine

/-- LD Vx, nn (R150). -/
def execLdImm (x : Reg) (nn : Byte) (s : State) : StepOutcome := .next (s.setV x nn)

/-- ADD Vx, nn (R151): no flag. -/
def execAddImm (x : Reg) (nn : Byte) (s : State) : StepOutcome := .next (s.setV x (s.getV x + nn))

/-- LD Vx, Vy (R155). -/
def execLdReg (x y : Reg) (s : State) : StepOutcome := .next (s.setV x (s.getV y))

/-- OR Vx, Vy (R156): VF is not reset. -/
def execOrReg (x y : Reg) (s : State) : StepOutcome := .next (s.setV x (s.getV x ||| s.getV y))

/-- AND Vx, Vy (R157): VF is not reset. -/
def execAndReg (x y : Reg) (s : State) : StepOutcome := .next (s.setV x (s.getV x &&& s.getV y))

/-- XOR Vx, Vy (R158): VF is not reset. -/
def execXorReg (x y : Reg) (s : State) : StepOutcome := .next (s.setV x (s.getV x ^^^ s.getV y))

/-- ADD Vx, Vy (R160): the sum is formed before VF is written. -/
def execAddReg (x y : Reg) (s : State) : StepOutcome :=
  .next ((s.setV regF (carryFlag (s.getV x) (s.getV y))).setV x (s.getV x + s.getV y))

/-- SUB Vx, Vy (R161): the difference reads the registers after VF is written. -/
def execSub (x y : Reg) (s : State) : StepOutcome :=
  let t := s.setV regF (noBorrowFlag (s.getV x) (s.getV y))
  .next (t.setV x (t.getV x - t.getV y))

/-- SUBN Vx, Vy (R162): the difference reads the registers after VF is written. -/
def execSubn (x y : Reg) (s : State) : StepOutcome :=
  let t := s.setV regF (noBorrowFlag (s.getV y) (s.getV x))
  .next (t.setV x (t.getV y - t.getV x))

/-- SHR Vx (R163): V[y] is never read. -/
def execShr (x _y : Reg) (s : State) : StepOutcome :=
  let t := s.setV regF (shiftOutRight (s.getV x))
  .next (t.setV x (t.getV x >>> 1))

/-- SHL Vx (R165): V[y] is never read. -/
def execShl (x _y : Reg) (s : State) : StepOutcome :=
  let t := s.setV regF (shiftOutLeft (s.getV x))
  .next (t.setV x (t.getV x <<< 1))

/-- RND Vx, nn (R171): a free byte (log entry 3) AND the mask. -/
def execRnd (x : Reg) (nn : Byte) (s : State) : StepOutcome :=
  .next (s.drawByte.2.setV x (s.drawByte.1 &&& nn))

end Sys2Proof.Machine
end

