-- ==== Sys2Proof/Machine/Display.lean ====
section
/-! DEFINITION. The display instructions `00E0` and `Dxyn` (spec/41_display.md). As in every family, the state a meaning
gets is the one after the fetch advanced PC (R92). -/

namespace Sys2Proof.Machine

/-- CLS (R111). -/
def execCls (s : State) : StepOutcome := .next (s.clearDisplay.setChanged true)

/-- DRW Vx, Vy, n (R112): the coordinates are read before VF is reset (D7), and `changed` is set always (D8; log entry 15). -/
def execDrw (x y : Reg) (n : Nat) (s : State) : StepOutcome :=
  .next (((s.setV regF 0).drawRows (s.getV x).toNat (s.getV y).toNat 0 n).setChanged true)

end Sys2Proof.Machine
end

