-- ==== Sys2Proof/Machine/Flow.lean ====
section
/-! DEFINITION. Jumps, calls, the return and the skips (spec/42_flow.md). -/

namespace Sys2Proof.Machine

/-- JP nnn (R130). -/
def execJp (nnn : BitVec 12) (s : State) : StepOutcome := .next (s.setPc (zextAddr nnn))

/-- RET (R131). -/
def execRet (s : State) : StepOutcome :=
  match s.pop with
  | none => .next (s.raise .stackUnderflow (some (encodeWord .ret)) none)
  | some (w, t) => .next (t.setPc w)

/-- CALL nnn (R132): the pushed return address is the advanced PC. -/
def execCall (nnn : BitVec 12) (s : State) : StepOutcome :=
  match s.push s.pc with
  | none => .next (s.raise .stackOverflow (some (encodeWord (.call nnn))) none)
  | some t => .next (t.setPc (zextAddr nnn))

/-- SE Vx, nn (R133). -/
def execSeImm (x : Reg) (nn : Byte) (s : State) : StepOutcome := .next (s.skipIf (s.getV x == nn))

/-- SNE Vx, nn (R134). -/
def execSneImm (x : Reg) (nn : Byte) (s : State) : StepOutcome := .next (s.skipIf (s.getV x != nn))

/-- SE Vx, Vy (R135). -/
def execSeReg (x y : Reg) (s : State) : StepOutcome := .next (s.skipIf (s.getV x == s.getV y))

/-- SNE Vx, Vy (R136). -/
def execSneReg (x y : Reg) (s : State) : StepOutcome := .next (s.skipIf (s.getV x != s.getV y))

/-- JP V0, nnn (R137): the offset register is always V0. -/
def execJpV0 (nnn : BitVec 12) (s : State) : StepOutcome :=
  .next (s.setPc (zextByte (s.getV 0) + zextAddr nnn))

end Sys2Proof.Machine
end

