-- ==== Sys2Proof/Machine/IndexMemory.lean ====
section
/-! DEFINITION. The index register and memory instructions (spec/44_index_memory.md). The three that touch memory check their
whole range before any access and change nothing when it fails (R53, decision D9, log entry 16). -/

namespace Sys2Proof.Machine

/-- LD I, nnn (R180). -/
def execLdI (nnn : BitVec 12) (s : State) : StepOutcome := .next (s.setI (zextAddr nnn))

/-- ADD I, Vx (R181): mod 65536, no flag, no bound check. -/
def execAddIVx (x : Reg) (s : State) : StepOutcome := .next (s.setI (s.index + zextByte (s.getV x)))

/-- LD F, Vx (R182). -/
def execLdFVx (x : Reg) (s : State) : StepOutcome := .next (s.setI (glyphAddr (s.getV x)))

/-- LD B, Vx (R183). -/
def execLdBVx (x : Reg) (s : State) : StepOutcome :=
  if outsideMemory (s.effAddr 2) then
    .next (s.raise .outOfBounds (some (encodeWord (.ldBVx x))) (some (s.effAddr 2)))
  else
    .next (((s.memWrite (s.effAddr 0) (bcdHundreds (s.getV x))).memWrite (s.effAddr 1) (bcdTens (s.getV x))).memWrite
      (s.effAddr 2) (bcdOnes (s.getV x)))

/-- LD [I], Vx (R184). -/
def execLdMemVx (x : Reg) (s : State) : StepOutcome :=
  if outsideMemory (s.effAddr x.val) then
    .next (s.raise .outOfBounds (some (encodeWord (.ldMemVx x))) (some (s.effAddr x.val)))
  else .next ((s.storeRegs (regBlock x)).bumpIndex x)

/-- LD Vx, [I] (R185). -/
def execLdVxMem (x : Reg) (s : State) : StepOutcome :=
  if outsideMemory (s.effAddr x.val) then
    .next (s.raise .outOfBounds (some (encodeWord (.ldVxMem x))) (some (s.effAddr x.val)))
  else .next ((s.loadRegs (regBlock x)).bumpIndex x)

end Sys2Proof.Machine
end

