-- ==== Sys2Proof/Machine/KeysTimers.lean ====
section
/-! DEFINITION. The keypad and timer instructions (spec/45_keys_timers.md). -/

namespace Sys2Proof.Machine

/-- SKP Vx (R200): a key index from 16 up is a hard error (R202, decision D11, log entry 17). -/
def execSkp (x : Reg) (s : State) : StepOutcome :=
  match keyIndex (s.getV x) with
  | none => .next (s.raise .outOfBounds (some (encodeWord (.skp x))) (some (s.getV x).toNat))
  | some k => .next (s.skipIf (s.key k))

/-- SKNP Vx (R201): a key index from 16 up is a hard error (R202, decision D11, log entry 17). -/
def execSknp (x : Reg) (s : State) : StepOutcome :=
  match keyIndex (s.getV x) with
  | none => .next (s.raise .outOfBounds (some (encodeWord (.sknp x))) (some (s.getV x).toNat))
  | some k => .next (s.skipIf (!s.key k))

/-- LD Vx, DT (R204). -/
def execLdVxDt (x : Reg) (s : State) : StepOutcome := .next (s.setV x s.delay)

/-- LD Vx, K (R206): some pressed key's index, or PC back by 2 so that the next step runs the instruction again. -/
def execLdVxK (x : Reg) (s : State) : StepOutcome :=
  match s.drawKey with
  | none => .next (s.setPc (s.pc - 2))
  | some (k, t) => .next (t.setV x (BitVec.ofNat 8 k.val))

/-- LD DT, Vx (R205). -/
def execLdDtVx (x : Reg) (s : State) : StepOutcome := .next (s.setDelay (s.getV x))

/-- LD ST, Vx (R207). -/
def execLdStVx (x : Reg) (s : State) : StepOutcome := .next (s.setSound (s.getV x))

end Sys2Proof.Machine
end

