-- ==== Sys2Proof/Machine/Step.lean ====
section
/-! DEFINITION. One call of `step` (spec/40_step.md): fetch, default advance, dispatch (R90-R95). -/

namespace Sys2Proof.Machine

/-- `step()` (R90). A step never decrements the timers (R100). -/
def step (s : State) : Host.Outcome State Fault Refusal :=
  match s.fetchWord with
  | none => fetchError s
  | some op =>
    match decodeWord op with
    | none => unknownOpcode op s.advance
    | some i => exec i s.advance

/-- The state with a table word stored where `step` fetches its next instruction. It stands for the host's `loadRom` (R252,
R255, log entry 8). -/
def State.withFetchWord (s : State) (nbits w : Nat) : State := s.placeWord (tableWord nbits w)

end Sys2Proof.Machine
end

