-- ==== Sys2Proof/Machine/HostOps.lean ====
section
/-! DEFINITION. The host operations other than `step` (R233 of spec/60_exceptions.md): each is one indivisible transaction on
the state (R57), and the host may call them in any order between steps (R238). -/

namespace Sys2Proof.Machine

/-- What `loadRom` returns (R252, R253). -/
inductive LoadResult where
  | ok
  | loadError
  | romTooLarge (length : Nat)
deriving DecidableEq, Repr

/-- What `setKey` returns (R213). -/
inductive KeyResult where
  | ok
  | invalidKey (index : Int)
deriving DecidableEq, Repr

/-- `initialize()`: the state after reset, whatever the state before (R250, R251). The count of draws, the model's own, goes on, so
that draws after it are fresh (log entry 5). -/
def State.reinit (s : State) : State := { State.resetWith s.font with draws := s.draws }

/-- `loadRom(bytes)`: the first 3584 bytes go to 0x200 and up; a longer image is reported with those bytes applied (R252,
decision D18, log entry 19). -/
def State.loadRom (s : State) (bytes : List Byte) : State × LoadResult :=
  (s.writeBytes Config.progBase (bytes.take Config.romMax),
    if bytes.length > Config.romMax then .romTooLarge bytes.length else .ok)

/-- A load for which the host has no bytes: nothing is written (R253, decision D19, log entry 19). -/
def State.loadMissing (s : State) : State × LoadResult := (s, .loadError)

/-- One timer's decrement, floored at 0 (R210). -/
def tickDown (b : Byte) : Byte := if b = 0 then 0 else b - 1

/-- `tick()` (R210). -/
def State.tick (s : State) : State := (s.setDelay (tickDown s.delay)).setSound (tickDown s.sound)

/-- `soundActive()` (R211). -/
def State.soundActive (s : State) : Bool := s.sound != 0

/-- `setKey(index, pressed)`: an index outside 0..15 changes nothing (R213, decision D22, log entry 20). -/
def State.setKey (s : State) (index : Int) (pressed : Bool) : State × KeyResult :=
  if h : 0 ≤ index ∧ index < 16 then (s.setKeyBit ⟨index.toNat, by omega⟩ pressed, .ok)
  else (s, .invalidKey index)

/-- `displayChanged()` (R237). -/
def State.displayChanged (s : State) : Bool := s.changed

/-- `clearChanged()` (R237). -/
def State.clearChanged (s : State) : State := s.setChanged false

/-! ### Numeric codes (R220, decision D16, log entry 22) -/

/-- The code of a step's result. -/
def StepResult.code : StepResult → Nat
  | .ok none => 0
  | .ok (some (.outOfBounds _)) => 1
  | .ok (some (.unknownOpcode _)) => 4
  | .err .outOfBounds _ => 1
  | .err .stackOverflow _ => 2
  | .err .stackUnderflow _ => 3

/-- The code of a `setKey` result. -/
def KeyResult.code : KeyResult → Nat
  | .ok => 0
  | .invalidKey _ => 5

/-- The code of a `loadRom` result. -/
def LoadResult.code : LoadResult → Nat
  | .ok => 0
  | .loadError => 6
  | .romTooLarge _ => 7

end Sys2Proof.Machine
end

