-- ==== Sys2Proof/Machine/Session.lean ====
section
/-! DEFINITION. The core as the host sees it (R233, R238, R255): before the first `initialize` there is no state to act on
(R256), after it every call is one transaction. -/

namespace Sys2Proof.Machine

/-- One call of the host interface of R233. `loadRom none` is a load for which the host has no bytes (R253). -/
inductive HostCall where
  | initCore
  | loadRom (bytes : Option (List Byte))
  | step
  | tick
  | setKey (index : Int) (pressed : Bool)
  | pixelAt (px py : Nat)
  | displayChanged
  | clearChanged
  | soundActive
deriving DecidableEq, Repr

/-- What a call returns: nothing, a result, or one bit. -/
inductive Reply where
  | nothing
  | loaded (r : LoadResult)
  | stepped (r : StepResult)
  | keyed (r : KeyResult)
  | bit (b : Bool)
deriving DecidableEq, Repr

/-- The core between host calls: unset before the first `initialize` (R256), when it has no state but its font, the parameter
of R8. -/
inductive Session where
  | unset (font : Font)
  | ready (s : State)
deriving DecidableEq, Repr

/-- The font a core was built with (R8). -/
def Session.font : Session → Font
  | .unset font => font
  | .ready s => s.font

/-- A host call on an initialized core (R233). -/
def State.serve (s : State) : HostCall → Host.Outcome (Session × Reply) Fault Refusal
  | .initCore => .next (.ready s.reinit, .nothing)
  | .loadRom (some bytes) => .next (.ready (s.loadRom bytes).1, .loaded (s.loadRom bytes).2)
  | .loadRom none => .next (.ready s.loadMissing.1, .loaded s.loadMissing.2)
  | .step =>
    match Sys2Proof.Machine.step s with
    | .next t => .next (.ready t, .stepped t.result)
    | .fault f => .fault f
    | .refused r => .refused r
  | .tick => .next (.ready s.tick, .nothing)
  | .setKey index pressed => .next (.ready (s.setKey index pressed).1, .keyed (s.setKey index pressed).2)
  | .pixelAt px py =>
    if h : px < 64 ∧ py < 32 then .next (.ready s, .bit (s.pixel ⟨px, h.1⟩ ⟨py, h.2⟩))
    else .refused (.pixelOutsideDisplay px py)
  | .displayChanged => .next (.ready s, .bit s.displayChanged)
  | .clearChanged => .next (.ready s.clearChanged, .nothing)
  | .soundActive => .next (.ready s, .bit s.soundActive)

/-- A host call on a session: before the first `initialize` every other call is refused (R256, decision D33, log entry 10). -/
def Session.call : Session → HostCall → Host.Outcome (Session × Reply) Fault Refusal
  | .unset font, .initCore => .next (.ready (State.resetWith font), .nothing)
  | .unset _, _ => .refused .beforeInit
  | .ready s, c => s.serve c

/-- A sequence of host calls in order, stopping at the first refusal (R238: any order is allowed). -/
def Session.calls : Session → List HostCall → Host.Outcome Session Fault Refusal
  | m, [] => .next m
  | m, c :: rest =>
    match m.call c with
    | .next (n, _) => n.calls rest
    | .fault f => .fault f
    | .refused r => .refused r

end Sys2Proof.Machine
end

