-- ==== Sys2Proof/Safety.lean ====
section
/-! DEFINITION. What claims call a safe run: steps that return no hard error (R96 and decision D31 have a claim take "no hard
error returned" as its premise), the invariant of the state (R26, R27, R53), and the parked state (R265). -/

namespace Sys2Proof.Machine

/-- A step returned `Ok`, with or without a diagnostic (R98). -/
def StepResult.isOk : StepResult → Bool
  | .ok _ => true
  | .err _ _ => false

/-- One step answers a state and returns no hard error. -/
def CleanStep (s : State) : Prop := ∃ t, step s = .next t ∧ t.result.isOk = true

/-- Every one of the next n steps is clean. -/
def CleanRun : Nat → State → Prop
  | 0, _ => True
  | n + 1, s => ∃ t, step s = .next t ∧ t.result.isOk = true ∧ CleanRun n t

/-- The largest PC a rule can write: 0xFF + 0xFFF, from `Bnnn` (R26). -/
abbrev pcMax : Nat := 4350

/-- What every step keeps: memory in canonical form and inside the address space, PC at most 4350, stack slots at most
4096 (R26, R53, R132). -/
abbrev State.Inv (s : State) : Prop :=
  s.mem.wf s.font ∧ s.pc.toNat ≤ pcMax ∧ ∀ k : Fin 16, (s.stack.get k).toNat ≤ Config.memSize

/-- The parked state of R265: PC = p and the word at p is `1nnn` with nnn = p. -/
def State.Parked (s : State) : Prop :=
  ∃ nnn : BitVec 12, s.fetchWord = some (encodeWord (.jp nnn)) ∧ s.pc.toNat = nnn.toNat

end Sys2Proof.Machine
end

