-- ==== Sys2Proof/Certificates/Slice0/Obligations.lean ====
section
/-! DEFINITION. The statements about the model, one per definition `Obligations.<Name>`, with the few predicates they are written
in. In a statement about `exec`, s is the state after the fetch advanced PC (R92), so "PC unchanged" there means
PC_before + 2. "log entry n" is notes/assumptions/n.md; "Dn" is a row of spec/92_eei_decisions.md, the spec's own choice. -/

open Sys2Proof Sys2Proof.Machine

namespace Sys2Proof.Claims

/-- Every word with the fixed bits of a row decodes to the row's instruction, its operands the word's fields (R12, R74). -/
def DecodesAs (mask pattern : Word) (build : Word → Instr) : Prop :=
  ∀ w : Word, w &&& mask = pattern → decodeWord w = some (build w)

/-- `(p)`: 1 if p holds and 0 otherwise (R166). -/
def bit (p : Prop) [Decidable p] : Byte := if p then 1 else 0

/-- A successful fetch reads this word (R91, R54): PC + 1 < 4096, high byte at PC. -/
def Fetches (s : State) (w : Word) : Prop :=
  s.pc.toNat + 1 < 4096 ∧ w.toNat = (s.memRead s.pc.toNat).toNat * 256 + (s.memRead (s.pc.toNat + 1)).toNat

/-- The state a successful fetch leaves for dispatch (R92), with the step's result begun as `Ok(none)` (R98). -/
def advanced (s : State) : State := { s with pc := s.pc + 2, result := .ok none }

/-- A set bit of the sprite of `Dxyn` falls on the pixel: some row r < n inside memory and some bit position b (R110, R112). -/
def Covers (s : State) (x y : Reg) (n : Nat) (px : Fin 64) (py : Fin 32) : Prop :=
  ∃ r b : Nat, r < n ∧ b < 8 ∧ s.index.toNat + r < 4096 ∧
    (s.memRead (s.index.toNat + r)).getLsbD (7 - b) = true ∧
    px.val = ((s.getV x).toNat + b) % 64 ∧ py.val = ((s.getV y).toNat + r) % 32

/-- The hard error a step returns from s, if any, with its info: the raising rules of R96 and R98. -/
def hardErrorOf (s : State) : Option (ErrKind × Info) :=
  match s.fetchWord with
  | none => some (.outOfBounds, ⟨none, some s.pc.toNat⟩)
  | some w =>
    match decodeWord w with
    | some .ret => if s.sp = 0 then some (.stackUnderflow, ⟨some w, none⟩) else none
    | some (.call _) => if s.sp = 16 then some (.stackOverflow, ⟨some w, none⟩) else none
    | some (.ldBVx _) =>
      if 4096 ≤ s.index.toNat + 2 then some (.outOfBounds, ⟨some w, some (s.index.toNat + 2)⟩) else none
    | some (.ldMemVx x) | some (.ldVxMem x) =>
      if 4096 ≤ s.index.toNat + x.val then some (.outOfBounds, ⟨some w, some (s.index.toNat + x.val)⟩) else none
    | some (.skp x) | some (.sknp x) =>
      if 16 ≤ (s.getV x).toNat then some (.outOfBounds, ⟨some w, some (s.getV x).toNat⟩) else none
    | _ => none

/-- The diagnostic a step records from s, if any (R95, R97, R112): the address is that of the first row past memory. -/
def diagnosticOf (s : State) : Option Diag :=
  match s.fetchWord with
  | none => none
  | some w =>
    match decodeWord w with
    | none => some (.unknownOpcode w)
    | some (.drw _ _ n) =>
      if 0 < n ∧ 4096 < s.index.toNat + n then some (.outOfBounds (max s.index.toNat 4096)) else none
    | _ => none

/-- PC after a step that fetches w from s: the table of R101. -/
def pcAfter (s : State) (w : Word) : Nat :=
  let pc := s.pc.toNat
  match decodeWord w with
  | some (.jp nnn) => nnn.toNat
  | some (.call nnn) => if s.sp = 16 then pc + 2 else nnn.toNat
  | some .ret => if h : 0 < s.sp.val then (s.stack.get ⟨s.sp.val - 1, by omega⟩).toNat else pc + 2
  | some (.jpV0 nnn) => (s.getV 0).toNat + nnn.toNat
  | some (.seImm x nn) => if s.getV x = nn then pc + 4 else pc + 2
  | some (.sneImm x nn) => if s.getV x ≠ nn then pc + 4 else pc + 2
  | some (.seReg x y) => if s.getV x = s.getV y then pc + 4 else pc + 2
  | some (.sneReg x y) => if s.getV x ≠ s.getV y then pc + 4 else pc + 2
  | some (.skp x) => if h : (s.getV x).toNat < 16 then (if s.key ⟨_, h⟩ = true then pc + 4 else pc + 2) else pc + 2
  | some (.sknp x) => if h : (s.getV x).toNat < 16 then (if s.key ⟨_, h⟩ = false then pc + 4 else pc + 2) else pc + 2
  | some (.ldVxK _) => if ∀ k, s.key k = false then pc else pc + 2
  | _ => pc + 2

/-- The registers an instruction may write: V[x], V[0]..V[x] for `Fx65`, and VF for the flag-producing ones (R21, R22). -/
def MayWrite : Instr → Reg → Prop
  | .ldImm x _, r | .addImm x _, r | .ldReg x _, r | .orReg x _, r | .andReg x _, r | .xorReg x _, r
  | .rnd x _, r | .ldVxDt x, r | .ldVxK x, r => r = x
  | .addReg x _, r | .sub x _, r | .subn x _, r | .shr x _, r | .shl x _, r => r = x ∨ r = 15
  | .drw _ _ _, r => r = 15
  | .ldVxMem x, r => r ≤ x
  | _, _ => False

end Sys2Proof.Claims

open Sys2Proof.Claims

/-! ### Encoding -/

/-- Decoding the bytes of an encoded well-formed instruction gives it back, whatever bytes follow: no bit of an operand is
dropped (formats of R72, byte order of R54). -/
def Obligations.DecodeAfterEncode : Prop :=
  ∀ (i : Instr) (rest : List Byte), i.WellFormed → decode (encode i ++ rest) = .instr i rest

/-- A word that decodes is the encoding of its instruction, which is well formed: each word has one meaning. -/
def Obligations.EncodeAfterDecode : Prop :=
  ∀ (w : Word) (i : Instr), decodeWord w = some i → i.WellFormed ∧ encodeWord i = w

/-- R74 and R75: a word decodes exactly when it matches a row of the table, to that row's instruction, and it matches at most one
row. The exact patterns of families 0, 5 and 9 rest on D4 (log entry 13). -/
def Obligations.DecoderFollowsOpcodeTable : Prop :=
  ∀ w : Word,
    (∀ i, decodeWord w = some i → ∃ r ∈ opcodeTable, r.Matches w ∧ r.mnemonic = i.mnemonic) ∧
    (decodeWord w = none → ∀ r ∈ opcodeTable, ¬r.Matches w) ∧
    (∀ r₁ ∈ opcodeTable, ∀ r₂ ∈ opcodeTable, r₁.Matches w → r₂.Matches w → r₁ = r₂)

/-- The unknown words per family, as the table of R76 lists them (by field, without its counts); rests on D4 (log entry 13). -/
def Obligations.UnknownWordsByFamily : Prop :=
  ∀ w : Word, decodeWord w = none ↔
    (family w = 0x0 ∧ w ≠ 0x00E0 ∧ w ≠ 0x00EE) ∨
    (family w = 0x5 ∧ lowNibble w ≠ 0) ∨
    (family w = 0x8 ∧ lowNibble w ∈ [0x8#4, 0x9#4, 0xA#4, 0xB#4, 0xC#4, 0xD#4, 0xF#4]) ∨
    (family w = 0x9 ∧ lowNibble w ≠ 0) ∨
    (family w = 0xE ∧ fieldNN w ≠ 0x9E ∧ fieldNN w ≠ 0xA1) ∨
    (family w = 0xF ∧ fieldNN w ∉ [0x07#8, 0x0A#8, 0x15#8, 0x18#8, 0x1E#8, 0x29#8, 0x33#8, 0x55#8, 0x65#8])

/-- Words written out from R75's patterns, one or more of each format, decode to the instructions they stand for. The last clause,
that 0x5121 decodes to nothing, is the spec's own choice D4 (log entry 13). -/
def Obligations.SampleWordsDecode : Prop :=
  decodeWord 0b0000000011100000 = some .cls ∧
  decodeWord 0b0001001000000100 = some (.jp 0x204) ∧
  decodeWord 0b0110101001111011 = some (.ldImm 10 0x7B) ∧
  decodeWord 0b1000000100100100 = some (.addReg 1 2) ∧
  decodeWord 0b1101000000010010 = some (.drw 0 1 2) ∧
  decodeWord 0b1111001001100101 = some (.ldVxMem 2) ∧
  decodeWord 0b0101000100100001 = none

/-! ### The step -/

/-- R92 and R93: after a successful fetch PC is PC_before + 2, at most 4096, before dispatch; a word that decodes to i runs i's meaning
on that state, and one that decodes to nothing records its diagnostic on that state. -/
def Obligations.StepRunsDecodedInstruction : Prop :=
  ∀ (s : State) (w : Word), Fetches s w →
    (advanced s).pc.toNat = s.pc.toNat + 2 ∧ (advanced s).pc.toNat ≤ 4096 ∧
    (∀ i, decodeWord w = some i → step s = exec i (advanced s)) ∧
    (decodeWord w = none → step s = .next { advanced s with result := .ok (some (.unknownOpcode w)) })

/-- R91: with PC + 1 >= 4096 the step is a hard error that changes nothing, not even PC; otherwise the opcode is the two bytes
at PC, big-endian. -/
def Obligations.FetchChecksThenReads : Prop :=
  (∀ s : State, 4096 ≤ s.pc.toNat + 1 →
    step s = .next { s with result := .err .outOfBounds ⟨none, some s.pc.toNat⟩ }) ∧
  (∀ s : State, s.pc.toNat + 1 < 4096 → ∃ w, s.fetchWord = some w ∧ Fetches s w)

/-- R95: an unknown opcode records the diagnostic and changes nothing beyond the default advance. -/
def Obligations.UnknownOpcodeIsNoOp : Prop :=
  ∀ (s : State) (w : Word), Fetches s w → decodeWord w = none →
    step s = .next { s with pc := s.pc + 2, result := .ok (some (.unknownOpcode w)) }

/-- No state stops the machine: every step answers a next state, no step a fault or a refusal (R221: errors go to the caller of
`step`, "the core itself never terminates the process"). -/
def Obligations.EveryStepAnswersNext : Prop := ∀ s : State, ∃ t, step s = .next t

/-- The hard errors of a step are exactly those of the raising rules, with the info of R98, and after one only PC differs: kept
by a failed fetch, advanced by 2 otherwise. Rests on D9, D10, D11 and D30 (log entries 2, 16, 17, 22). -/
def Obligations.HardErrorsAreExact : Prop :=
  ∀ s t : State, step s = .next t →
    (∀ k info, t.result = .err k info ↔ hardErrorOf s = some (k, info)) ∧
    (∀ k info, hardErrorOf s = some (k, info) →
      t = { s with pc := if s.pc.toNat + 1 < 4096 then s.pc + 2 else s.pc, result := .err k info })

/-- The diagnostics of a step are exactly the two of R97, never beside a hard error (R99). Rests on D8 (log entry 15). -/
def Obligations.DiagnosticsAreExact : Prop :=
  ∀ s t : State, step s = .next t →
    ∀ d, t.result = .ok d ↔ hardErrorOf s = none ∧ diagnosticOf s = d

/-- PC after a step that fetched, for every instruction and every unknown opcode: the table of R101, whose row on hard errors
rests on D10 (log entry 2). -/
def Obligations.PcAfterStep : Prop :=
  ∀ (s t : State) (w : Word), Fetches s w → step s = .next t → t.pc.toNat = pcAfter s w

/-- R94 with the writers of R38: which instructions may change each piece of state other than V and PC, and that none changes
`keys` or the parameter FONT (R8). -/
def Obligations.OnlyWritersChangeState : Prop :=
  ∀ (i : Instr) (s t : State), exec i s = .next t →
    t.keys = s.keys ∧ t.font = s.font ∧
    (t.disp ≠ s.disp ∨ t.changed ≠ s.changed → i.mnemonic ∈ ["CLS", "DRW"]) ∧
    (t.mem ≠ s.mem → i.mnemonic ∈ ["LD_B_VX", "LD_MEM_VX"]) ∧
    (t.stack ≠ s.stack → i.mnemonic ∈ ["CALL"]) ∧
    (t.sp ≠ s.sp → i.mnemonic ∈ ["CALL", "RET"]) ∧
    (t.index ≠ s.index → i.mnemonic ∈ ["LD_I", "ADD_I_VX", "LD_F_VX", "LD_MEM_VX", "LD_VX_MEM"]) ∧
    (t.delay ≠ s.delay → i.mnemonic ∈ ["LD_DT_VX"]) ∧
    (t.sound ≠ s.sound → i.mnemonic ∈ ["LD_ST_VX"])

/-- R21 and R22: an instruction changes no general register but the ones those rules have it write. -/
def Obligations.OnlyNamedRegistersChange : Prop :=
  ∀ (i : Instr) (s t : State) (r : Reg), exec i s = .next t → ¬MayWrite i r → t.getV r = s.getV r

/-- R100: a step does not decrement the timers; a step changes one only by running the instruction that sets it. -/
def Obligations.StepsDoNotTick : Prop :=
  ∀ s t : State, step s = .next t →
    (t.delay = s.delay ∨ ∃ w x, Fetches s w ∧ decodeWord w = some (.ldDtVx x) ∧ t.delay = s.getV x) ∧
    (t.sound = s.sound ∨ ∃ w x, Fetches s w ∧ decodeWord w = some (.ldStVx x) ∧ t.sound = s.getV x)

/-- No step reads the result of an earlier one (R98), so the model's own field for it (log entry 1) is an output only: runs from
states that differ in it alone are the same. -/
def Obligations.RunsIgnoreLastResult : Prop :=
  ∀ (n : Nat) (s : State) (r : StepResult), core.run (n + 1) { s with result := r } = core.run (n + 1) s

/-- R37: the free inputs of a step are the random byte of `Cxnn` and the key choice of `Fx0A`, so every other instruction acts the same
whatever has been drawn; the count of draws is the model's own field (log entries 3 to 5). -/
def Obligations.FreeInputsReachTwoInstructions : Prop :=
  ∀ (i : Instr) (s t : State) (n : Nat), i.mnemonic ∉ ["RND", "LD_VX_K"] → exec i s = .next t →
    exec i { s with draws := n } = .next { t with draws := n }

/-! ### Invariants and runs -/

/-- The invariant holds at reset, with the default font and with every other value of the parameter FONT (R8). -/
def Obligations.ResetMeetsInvariant : Prop := State.reset.Inv ∧ ∀ font : Font, (State.resetWith font).Inv

/-- Every step keeps the invariant: memory canonical and inside 0..4095 (R53; log entry 7), PC at most 4350 (R26), stack slots at
most 4096 (R132). -/
def Obligations.StepKeepsInvariant : Prop :=
  ∀ s t : State, s.Inv → step s = .next t → t.Inv

/-- Every host call keeps the invariant from every state that meets it, and keeps FONT (R8, R233). So every state the host can reach,
by any calls in any order from before the first `initialize`, meets the invariant (R238), whatever FONT is. -/
def Obligations.HostCallsKeepInvariant : Prop :=
  (∀ (s t : State) (c : HostCall) (r : Reply), s.Inv → (Session.ready s).call c = .next (.ready t, r) →
    t.Inv ∧ t.font = s.font) ∧
  (∀ (font : Font) (calls : List HostCall) (s : State), (Session.unset font).calls calls = .next (.ready s) →
    s.Inv ∧ s.font = font)

/-- R262, an inference of the spec: once PC >= 4095 every later step, however many, fails the fetch and changes nothing. -/
def Obligations.FetchErrorIsPermanent : Prop :=
  ∀ (s : State) (n : Nat), 4095 ≤ s.pc.toNat →
    core.run (n + 1) s = .next { s with result := .err .outOfBounds ⟨none, some s.pc.toNat⟩ }

/-- R265, a definition of the spec: from a parked state every number of steps leaves the whole state unchanged and returns
`Ok`. -/
def Obligations.ParkedStateStays : Prop :=
  ∀ (s : State) (n : Nat), s.Parked → core.run (n + 1) s = .next { s with result := .ok none }

/-! ### Display -/

/-- R111: CLS sets every pixel to 0 and `changed` to 1, and nothing else. -/
def Obligations.ClearScreen : Prop :=
  decodeWord 0x00E0 = some .cls ∧
  ∀ s : State, ∃ t, exec .cls s = .next t ∧
    (∀ px py, t.pixel px py = false) ∧ t.changed = true ∧
    t = { s with disp := t.disp, changed := t.changed }

/-- DRW (R110, R112): exactly the covered pixels flip, VF is 1 iff one of them was on, `changed` is set, the first row past memory
is a diagnostic, and nothing else changes. That the coordinates are read before VF is reset is D7, and the cases n = 0 and no
row in range are D8 (log entry 15). -/
def Obligations.DrawSprite : Prop :=
  DecodesAs 0xF000 0xD000 (fun w => .drw (fieldX w) (fieldY w) (fieldN w)) ∧
  ∀ (x y : Reg) (n : Nat) (s : State), (Instr.drw x y n).WellFormed →
    ∃ t, exec (.drw x y n) s = .next t ∧
      (∀ px py, Covers s x y n px py → t.pixel px py = !s.pixel px py) ∧
      (∀ px py, ¬Covers s x y n px py → t.pixel px py = s.pixel px py) ∧
      ((∃ px py, Covers s x y n px py ∧ s.pixel px py = true) → t.getV 15 = 1) ∧
      ((¬∃ px py, Covers s x y n px py ∧ s.pixel px py = true) → t.getV 15 = 0) ∧
      (∀ r, r ≠ 15 → t.getV r = s.getV r) ∧
      t.changed = true ∧
      t.result = (if 0 < n ∧ 4096 < s.index.toNat + n then .ok (some (.outOfBounds (max s.index.toNat 4096)))
        else s.result) ∧
      t = { s with v := t.v, disp := t.disp, changed := t.changed, result := t.result }

/-- R113, an inference of the spec: the same `Dxyn` twice, x and y not 15, restores every pixel, and the second draw's VF is 1
exactly when a covered pixel was 0 before the first. -/
def Obligations.DrawTwiceRestores : Prop :=
  ∀ (x y : Reg) (n : Nat) (s : State), (Instr.drw x y n).WellFormed → x ≠ 15 → y ≠ 15 →
    ∃ t u, exec (.drw x y n) s = .next t ∧ exec (.drw x y n) t = .next u ∧
      u.disp = s.disp ∧
      (u.getV 15 = 1 ↔ ∃ px py, Covers s x y n px py ∧ s.pixel px py = false) ∧
      (u.getV 15 = 0 ↔ ∀ px py, Covers s x y n px py → s.pixel px py = true)

/-! ### Control flow -/

/-- R130: JP sets PC to nnn, zero-extended, odd or even, and changes nothing else. -/
def Obligations.Jump : Prop :=
  DecodesAs 0xF000 0x1000 (fun w => .jp (fieldNNN w)) ∧
  ∀ (nnn : BitVec 12) (s : State), ∃ t, exec (.jp nnn) s = .next t ∧
    t.pc.toNat = nnn.toNat ∧ t = { s with pc := t.pc }

/-- RET (R131): with SP > 0 it decrements SP and jumps to the slot there, leaving the slot (an inference of the spec from R94); with
SP = 0 it is the hard error, changing nothing (D10, log entry 2). -/
def Obligations.ReturnPops : Prop :=
  decodeWord 0x00EE = some .ret ∧
  (∀ s : State, s.sp ≠ 0 → ∃ t, exec .ret s = .next t ∧
    t.sp.val + 1 = s.sp.val ∧ (∀ k : Fin 16, k.val = t.sp.val → t.pc = s.stack.get k) ∧
    t = { s with sp := t.sp, pc := t.pc }) ∧
  (∀ s : State, s.sp = 0 → exec .ret s = .next { s with result := .err .stackUnderflow ⟨some 0x00EE, none⟩ })

/-- CALL (R132): with SP < 16 it stores the advanced PC at slot SP, increments SP and jumps; with SP = 16 it is the hard error,
changing nothing (D10, log entry 2). -/
def Obligations.CallPushes : Prop :=
  DecodesAs 0xF000 0x2000 (fun w => .call (fieldNNN w)) ∧
  (∀ (nnn : BitVec 12) (s : State), s.sp ≠ 16 → ∃ t, exec (.call nnn) s = .next t ∧
    t.sp.val = s.sp.val + 1 ∧ t.pc.toNat = nnn.toNat ∧
    (∀ k : Fin 16, t.stack.get k = if k.val = s.sp.val then s.pc else s.stack.get k) ∧
    t = { s with stack := t.stack, sp := t.sp, pc := t.pc }) ∧
  (∀ (nnn : BitVec 12) (s : State), s.sp = 16 → ∃ w : Word, w.toNat = 0x2000 + nnn.toNat ∧
    exec (.call nnn) s = .next { s with result := .err .stackOverflow ⟨some w, none⟩ })

/-- R133 and R134: SE and SNE with an immediate skip 2 bytes when V[x] equals, or differs from, nn, and change nothing else. -/
def Obligations.SkipOnImmediate : Prop :=
  DecodesAs 0xF000 0x3000 (fun w => .seImm (fieldX w) (fieldNN w)) ∧
  DecodesAs 0xF000 0x4000 (fun w => .sneImm (fieldX w) (fieldNN w)) ∧
  ∀ (x : Reg) (nn : Byte) (s : State),
    exec (.seImm x nn) s = .next { s with pc := if s.getV x = nn then s.pc + 2 else s.pc } ∧
    exec (.sneImm x nn) s = .next { s with pc := if s.getV x = nn then s.pc else s.pc + 2 }

/-- SE and SNE with a register (R135, R136), the words with a non-zero low nibble being unknown (D4, log entry 13). -/
def Obligations.SkipOnRegister : Prop :=
  DecodesAs 0xF00F 0x5000 (fun w => .seReg (fieldX w) (fieldY w)) ∧
  DecodesAs 0xF00F 0x9000 (fun w => .sneReg (fieldX w) (fieldY w)) ∧
  (∀ w : Word, w &&& 0xF000 = 0x5000 ∨ w &&& 0xF000 = 0x9000 → w &&& 0x000F ≠ 0 → decodeWord w = none) ∧
  ∀ (x y : Reg) (s : State),
    exec (.seReg x y) s = .next { s with pc := if s.getV x = s.getV y then s.pc + 2 else s.pc } ∧
    exec (.sneReg x y) s = .next { s with pc := if s.getV x = s.getV y then s.pc else s.pc + 2 }

/-- R137: JP V0 sets PC to V[0] + nnn, with no wrap, and changes nothing else. -/
def Obligations.JumpPlusV0 : Prop :=
  DecodesAs 0xF000 0xB000 (fun w => .jpV0 (fieldNNN w)) ∧
  ∀ (nnn : BitVec 12) (s : State), ∃ t, exec (.jpV0 nnn) s = .next t ∧
    t.pc.toNat = (s.getV 0).toNat + nnn.toNat ∧ t = { s with pc := t.pc }

/-! ### Registers, arithmetic and logic -/

/-- R150 and R151: LD Vx, nn writes nn, and ADD Vx, nn the sum mod 256, to V[x], and nothing else changes: no flag, even on
overflow. -/
def Obligations.LoadAndAddImmediate : Prop :=
  DecodesAs 0xF000 0x6000 (fun w => .ldImm (fieldX w) (fieldNN w)) ∧
  DecodesAs 0xF000 0x7000 (fun w => .addImm (fieldX w) (fieldNN w)) ∧
  ∀ (x : Reg) (nn : Byte) (s : State),
    (∃ t, exec (.ldImm x nn) s = .next t ∧
      t.getV x = nn ∧ (∀ r, r ≠ x → t.getV r = s.getV r) ∧ t = { s with v := t.v }) ∧
    (∃ t, exec (.addImm x nn) s = .next t ∧
      (t.getV x).toNat = ((s.getV x).toNat + nn.toNat) % 256 ∧
      (∀ r, r ≠ x → t.getV r = s.getV r) ∧ t = { s with v := t.v })

/-- R155: LD Vx, Vy copies V[y] to V[x] and changes nothing else. -/
def Obligations.CopyRegister : Prop :=
  DecodesAs 0xF00F 0x8000 (fun w => .ldReg (fieldX w) (fieldY w)) ∧
  ∀ (x y : Reg) (s : State), ∃ t, exec (.ldReg x y) s = .next t ∧
    t.getV x = s.getV y ∧ (∀ r, r ≠ x → t.getV r = s.getV r) ∧ t = { s with v := t.v }

/-- R156, R157 and R158: OR, AND and XOR combine V[x] and V[y] bit by bit into V[x] and change nothing else, VF included. -/
def Obligations.BitwiseLogic : Prop :=
  DecodesAs 0xF00F 0x8001 (fun w => .orReg (fieldX w) (fieldY w)) ∧
  DecodesAs 0xF00F 0x8002 (fun w => .andReg (fieldX w) (fieldY w)) ∧
  DecodesAs 0xF00F 0x8003 (fun w => .xorReg (fieldX w) (fieldY w)) ∧
  ∀ (x y : Reg) (s : State),
    (∃ t, exec (.orReg x y) s = .next t ∧
      (∀ k, (t.getV x).getLsbD k = ((s.getV x).getLsbD k || (s.getV y).getLsbD k)) ∧
      (∀ r, r ≠ x → t.getV r = s.getV r) ∧ t = { s with v := t.v }) ∧
    (∃ t, exec (.andReg x y) s = .next t ∧
      (∀ k, (t.getV x).getLsbD k = ((s.getV x).getLsbD k && (s.getV y).getLsbD k)) ∧
      (∀ r, r ≠ x → t.getV r = s.getV r) ∧ t = { s with v := t.v }) ∧
    (∃ t, exec (.xorReg x y) s = .next t ∧
      (∀ k, (t.getV x).getLsbD k = ((s.getV x).getLsbD k ^^ (s.getV y).getLsbD k)) ∧
      (∀ r, r ≠ x → t.getV r = s.getV r) ∧ t = { s with v := t.v })

/-- ADD Vx, Vy (R160): V[x] is the sum mod 256 and VF the carry; with x = 15 the result wins over the flag (conflict C3, D5, log
entry 14). -/
def Obligations.AddWithCarry : Prop :=
  DecodesAs 0xF00F 0x8004 (fun w => .addReg (fieldX w) (fieldY w)) ∧
  ∀ (x y : Reg) (s : State), ∃ t, exec (.addReg x y) s = .next t ∧
    (t.getV x).toNat = ((s.getV x).toNat + (s.getV y).toNat) % 256 ∧
    (x ≠ 15 → t.getV 15 = bit ((s.getV x).toNat + (s.getV y).toNat > 255)) ∧
    (∀ r, r ≠ x → r ≠ 15 → t.getV r = s.getV r) ∧ t = { s with v := t.v }

/-- SUB Vx, Vy (R161): the difference and the no-borrow flag, with the outcomes of R166 when x or y is 15, which rest on D5 (log
entry 14). -/
def Obligations.SubtractNoBorrow : Prop :=
  DecodesAs 0xF00F 0x8005 (fun w => .sub (fieldX w) (fieldY w)) ∧
  ∀ (x y : Reg) (s : State), ∃ t, exec (.sub x y) s = .next t ∧
    (x ≠ 15 → t.getV 15 = bit ((s.getV x).toNat ≥ (s.getV y).toNat)) ∧
    (x ≠ 15 → y ≠ 15 → t.getV x = s.getV x - s.getV y) ∧
    (x ≠ 15 → y = 15 → t.getV x = s.getV x - bit ((s.getV x).toNat ≥ (s.getV 15).toNat)) ∧
    (x = 15 → y ≠ 15 → t.getV 15 = bit ((s.getV 15).toNat ≥ (s.getV y).toNat) - s.getV y) ∧
    (x = 15 → y = 15 → t.getV 15 = 0) ∧
    (∀ r, r ≠ x → r ≠ 15 → t.getV r = s.getV r) ∧ t = { s with v := t.v }

/-- SUBN Vx, Vy (R162): the reversed difference and the no-borrow flag, with the outcomes of R166 when x or y is 15, which rest on D5
(log entry 14). -/
def Obligations.SubtractReversed : Prop :=
  DecodesAs 0xF00F 0x8007 (fun w => .subn (fieldX w) (fieldY w)) ∧
  ∀ (x y : Reg) (s : State), ∃ t, exec (.subn x y) s = .next t ∧
    (x ≠ 15 → t.getV 15 = bit ((s.getV y).toNat ≥ (s.getV x).toNat)) ∧
    (x ≠ 15 → y ≠ 15 → t.getV x = s.getV y - s.getV x) ∧
    (x ≠ 15 → y = 15 → t.getV x = bit ((s.getV 15).toNat ≥ (s.getV x).toNat) - s.getV x) ∧
    (x = 15 → y ≠ 15 → t.getV 15 = s.getV y - bit ((s.getV y).toNat ≥ (s.getV 15).toNat)) ∧
    (x = 15 → y = 15 → t.getV 15 = 0) ∧
    (∀ r, r ≠ x → r ≠ 15 → t.getV r = s.getV r) ∧ t = { s with v := t.v }

/-- SHR Vx (R163): V[x] halves, VF is its old bit 0 and y is ignored; the outcome for x = 15 rests on D5 (log entry 14). -/
def Obligations.ShiftRightOne : Prop :=
  DecodesAs 0xF00F 0x8006 (fun w => .shr (fieldX w) (fieldY w)) ∧
  ∀ (x y : Reg) (s : State), ∃ t, exec (.shr x y) s = .next t ∧
    (x ≠ 15 → (t.getV x).toNat = (s.getV x).toNat / 2 ∧ (t.getV 15).toNat = (s.getV x).toNat % 2) ∧
    (x = 15 → t.getV 15 = 0) ∧
    (∀ r, r ≠ x → r ≠ 15 → t.getV r = s.getV r) ∧ t = { s with v := t.v }

/-- SHL Vx (R165): V[x] doubles mod 256, VF is its old bit 7 and y is ignored; the outcome for x = 15 rests on D5 (log
entry 14). -/
def Obligations.ShiftLeftOne : Prop :=
  DecodesAs 0xF00F 0x800E (fun w => .shl (fieldX w) (fieldY w)) ∧
  ∀ (x y : Reg) (s : State), ∃ t, exec (.shl x y) s = .next t ∧
    (x ≠ 15 → (t.getV x).toNat = 2 * (s.getV x).toNat % 256 ∧ (t.getV 15).toNat = (s.getV x).toNat / 128) ∧
    (x = 15 → (t.getV 15).toNat = 2 * ((s.getV 15).toNat / 128)) ∧
    (∀ r, r ≠ x → r ≠ 15 → t.getV r = s.getV r) ∧ t = { s with v := t.v }

/-- RND Vx, nn (R171): V[x] is some byte AND nn, a fresh draw of the free input of D13 (log entry 3), 0 when nn is 0, whatever that
input and the count of draws are; nothing else changes but that count, the model's own. -/
def Obligations.RandomMasked : Prop :=
  DecodesAs 0xF000 0xC000 (fun w => .rnd (fieldX w) (fieldNN w)) ∧
  ∀ (x : Reg) (nn : Byte) (s : State), ∃ t, exec (.rnd x nn) s = .next t ∧
    t.getV x = Config.randByte s.draws &&& nn ∧ (nn = 0 → t.getV x = 0) ∧
    (∀ r, r ≠ x → t.getV r = s.getV r) ∧ t.draws = s.draws + 1 ∧ t = { s with v := t.v, draws := t.draws }

/-! ### Index and memory -/

/-- R180, R181 and R182: LD I, ADD I (mod 65536) and LD F (V[x] * 5, not masked) write I and nothing else. -/
def Obligations.IndexWrites : Prop :=
  DecodesAs 0xF000 0xA000 (fun w => .ldI (fieldNNN w)) ∧
  DecodesAs 0xF0FF 0xF01E (fun w => .addIVx (fieldX w)) ∧
  DecodesAs 0xF0FF 0xF029 (fun w => .ldFVx (fieldX w)) ∧
  ∀ (nnn : BitVec 12) (x : Reg) (s : State),
    (∃ t, exec (.ldI nnn) s = .next t ∧ t.index.toNat = nnn.toNat ∧ t = { s with index := t.index }) ∧
    (∃ t, exec (.addIVx x) s = .next t ∧ t.index.toNat = (s.index.toNat + (s.getV x).toNat) % 65536 ∧
      t = { s with index := t.index }) ∧
    (∃ t, exec (.ldFVx x) s = .next t ∧ t.index.toNat = (s.getV x).toNat * 5 ∧ t = { s with index := t.index })

/-- LD B, Vx (R183): the three decimal digits at I, I + 1, I + 2 and no other byte; with I + 2 past memory it is the hard error,
nothing written (D9, log entry 16). -/
def Obligations.StoreDigits : Prop :=
  DecodesAs 0xF0FF 0xF033 (fun w => .ldBVx (fieldX w)) ∧
  (∀ (x : Reg) (s : State), s.effAddr 2 < 4096 → ∃ t, exec (.ldBVx x) s = .next t ∧
    (t.memRead (s.effAddr 0)).toNat = (s.getV x).toNat / 100 ∧
    (t.memRead (s.effAddr 1)).toNat = (s.getV x).toNat / 10 % 10 ∧
    (t.memRead (s.effAddr 2)).toNat = (s.getV x).toNat % 10 ∧
    (∀ a, a ≠ s.effAddr 0 → a ≠ s.effAddr 1 → a ≠ s.effAddr 2 → t.memRead a = s.memRead a) ∧
    t = { s with mem := t.mem }) ∧
  (∀ (x : Reg) (s : State), 4096 ≤ s.effAddr 2 → ∃ w : Word, w.toNat = 0xF033 + 256 * x.val ∧
    exec (.ldBVx x) s = .next { s with result := .err .outOfBounds ⟨some w, some (s.effAddr 2)⟩ })

/-- LD [I], Vx (R184): V[0]..V[x] at I..I + x and no other byte, then I + x + 1; with I + x past memory it is the hard error, nothing
written (D9, log entry 16). -/
def Obligations.StoreBlock : Prop :=
  DecodesAs 0xF0FF 0xF055 (fun w => .ldMemVx (fieldX w)) ∧
  (∀ (x : Reg) (s : State), s.effAddr x.val < 4096 → ∃ t, exec (.ldMemVx x) s = .next t ∧
    (∀ r : Reg, r ≤ x → t.memRead (s.effAddr r.val) = s.getV r) ∧
    (∀ a, (∀ r : Reg, r ≤ x → a ≠ s.effAddr r.val) → t.memRead a = s.memRead a) ∧
    t.index.toNat = s.index.toNat + x.val + 1 ∧
    t = { s with mem := t.mem, index := t.index }) ∧
  (∀ (x : Reg) (s : State), 4096 ≤ s.effAddr x.val → ∃ w : Word, w.toNat = 0xF055 + 256 * x.val ∧
    exec (.ldMemVx x) s = .next { s with result := .err .outOfBounds ⟨some w, some (s.effAddr x.val)⟩ })

/-- LD Vx, [I] (R185): V[0]..V[x] from I..I + x and no other register, then I + x + 1, memory unchanged; with I + x past memory it is
the hard error, nothing read (D9, log entry 16). -/
def Obligations.LoadBlock : Prop :=
  DecodesAs 0xF0FF 0xF065 (fun w => .ldVxMem (fieldX w)) ∧
  (∀ (x : Reg) (s : State), s.effAddr x.val < 4096 → ∃ t, exec (.ldVxMem x) s = .next t ∧
    (∀ r : Reg, r ≤ x → t.getV r = s.memRead (s.effAddr r.val)) ∧
    (∀ r : Reg, x < r → t.getV r = s.getV r) ∧
    t.index.toNat = s.index.toNat + x.val + 1 ∧
    t = { s with v := t.v, index := t.index }) ∧
  (∀ (x : Reg) (s : State), 4096 ≤ s.effAddr x.val → ∃ w : Word, w.toNat = 0xF065 + 256 * x.val ∧
    exec (.ldVxMem x) s = .next { s with result := .err .outOfBounds ⟨some w, some (s.effAddr x.val)⟩ })

/-- A block stored by `Fx55` and loaded again by `Fx65` from the same I, whatever happened to the registers between, restores V[0]..
V[x] (from R184 and R185). -/
def Obligations.StoreThenLoadRestores : Prop :=
  ∀ (x : Reg) (s : State) (between : Vector Byte 16), s.effAddr x.val < 4096 →
    ∃ t u, exec (.ldMemVx x) s = .next t ∧
      exec (.ldVxMem x) { t with v := between, index := s.index } = .next u ∧
      ∀ r : Reg, r ≤ x → u.getV r = s.getV r

/-- R61, an inference of the spec: a word `Fx55` stores over the bytes at PC is the word the next step fetches, with no fence. -/
def Obligations.StoredCodeIsFetched : Prop :=
  ∀ (x r q : Reg) (s : State), q.val = r.val + 1 → q ≤ x → s.effAddr x.val < 4096 →
    s.pc.toNat = s.effAddr r.val →
    ∃ t, exec (.ldMemVx x) s = .next t ∧ t.fetchWord = some (wordOf (s.getV r) (s.getV q))

/-- R59: after any sequence of writes, each byte reads as the last write to it, or as before them if there was none. -/
def Obligations.ReadsSeeLastWrite : Prop :=
  ∀ (font : Font) (writes : List Host.Cell) (m : Memory) (a : Nat),
    (writes.foldl (fun m c => m.write font c.1 c.2) m).read font a =
      match writes.reverse.find? (fun c => c.1 == a) with
      | some c => c.2
      | none => m.read font a

/-- The model's memory form (log entry 7): canonical memories that read alike at every address are the same data. -/
def Obligations.CanonicalMemoryUnique : Prop :=
  ∀ (font : Font) (m n : Memory), m.wf font → n.wf font → (∀ a, m.read font a = n.read font a) → m = n

/-! ### Keys and timers -/

/-- SKP and SKNP (R200, R201): they skip on the key V[x] pressed, or not pressed; an index from 16 up is the hard error with no skip,
which is D11 (R202, log entry 17). -/
def Obligations.SkipOnKey : Prop :=
  DecodesAs 0xF0FF 0xE09E (fun w => .skp (fieldX w)) ∧
  DecodesAs 0xF0FF 0xE0A1 (fun w => .sknp (fieldX w)) ∧
  (∀ (x : Reg) (s : State) (k : Fin 16), (s.getV x).toNat = k.val →
    exec (.skp x) s = .next { s with pc := if s.key k = true then s.pc + 2 else s.pc } ∧
    exec (.sknp x) s = .next { s with pc := if s.key k = true then s.pc else s.pc + 2 }) ∧
  (∀ (x : Reg) (s : State), 16 ≤ (s.getV x).toNat → ∃ p q : Word,
    p.toNat = 0xE09E + 256 * x.val ∧ q.toNat = 0xE0A1 + 256 * x.val ∧
    exec (.skp x) s = .next { s with result := .err .outOfBounds ⟨some p, some (s.getV x).toNat⟩ } ∧
    exec (.sknp x) s = .next { s with result := .err .outOfBounds ⟨some q, some (s.getV x).toNat⟩ })

/-- LD Vx, K (R206): with no key pressed PC goes back by 2 and nothing else changes; otherwise V[x] is the index of some pressed key,
any one of them when several are (D12, log entry 4), whatever the free choice is. -/
def Obligations.WaitForKey : Prop :=
  DecodesAs 0xF0FF 0xF00A (fun w => .ldVxK (fieldX w)) ∧
  (∀ (x : Reg) (s : State), (∀ k, s.key k = false) → exec (.ldVxK x) s = .next { s with pc := s.pc - 2 }) ∧
  (∀ (x : Reg) (s : State), (∃ k, s.key k = true) → ∃ t k, exec (.ldVxK x) s = .next t ∧
    s.key k = true ∧ (t.getV x).toNat = k.val ∧ (∀ r, r ≠ x → t.getV r = s.getV r) ∧
    t = { s with v := t.v, draws := t.draws })

/-- R231: while no key is pressed every step at an `Fx0A` re-executes it with no effect, for any number of steps, and `setKey(k, 1)` ends
the wait at the next step, which leaves PC past the instruction and k in V[x]. -/
def Obligations.KeyWaitHoldsUntilKey : Prop :=
  ∀ (x : Reg) (s : State), s.fetchWord = some (encodeWord (.ldVxK x)) → (∀ k, s.key k = false) →
    (∀ n, core.run (n + 1) s = .next { s with result := .ok none }) ∧
    (∀ k : Fin 16, ∃ t, step (s.setKey k.val true).1 = .next t ∧
      (t.getV x).toNat = k.val ∧ t.pc.toNat = s.pc.toNat + 2)

/-- R204, R205 and R207: the moves between V[x] and the timers write their destination and nothing else. -/
def Obligations.TimerMoves : Prop :=
  DecodesAs 0xF0FF 0xF007 (fun w => .ldVxDt (fieldX w)) ∧
  DecodesAs 0xF0FF 0xF015 (fun w => .ldDtVx (fieldX w)) ∧
  DecodesAs 0xF0FF 0xF018 (fun w => .ldStVx (fieldX w)) ∧
  ∀ (x : Reg) (s : State),
    (∃ t, exec (.ldVxDt x) s = .next t ∧ t.getV x = s.delay ∧ (∀ r, r ≠ x → t.getV r = s.getV r) ∧
      t = { s with v := t.v }) ∧
    exec (.ldDtVx x) s = .next { s with delay := s.getV x } ∧
    exec (.ldStVx x) s = .next { s with sound := s.getV x }

/-! ### Host operations -/

/-- R210: `tick` decrements each timer by one, floored at 0, and changes nothing else. -/
def Obligations.TickDecrementsTimers : Prop :=
  ∀ s : State, ∃ t, (Session.ready s).call .tick = .next (.ready t, .nothing) ∧
    t.delay.toNat = s.delay.toNat - 1 ∧ t.sound.toNat = s.sound.toNat - 1 ∧
    t = { s with delay := t.delay, sound := t.sound }

/-- `setKey` (R213): an index 0..15 sets that key and nothing else; any other is `InvalidKey` and changes nothing, which is D22
(log entry 20). -/
def Obligations.SetKeyWritesOneKey : Prop :=
  (∀ (s : State) (k : Fin 16) (p : Bool), ∃ t,
    (Session.ready s).call (.setKey k.val p) = .next (.ready t, .keyed .ok) ∧
    t.key k = p ∧ (∀ j, j ≠ k → t.key j = s.key j) ∧ t = { s with keys := t.keys }) ∧
  (∀ (s : State) (i : Int) (p : Bool), i < 0 ∨ 16 ≤ i →
    (Session.ready s).call (.setKey i p) = .next (.ready s, .keyed (.invalidKey i)))

/-- `loadRom` (R252, R253): the first 3584 bytes land at 0x200 and up, no other byte and no other state changes, a longer image is
`RomTooLarge` with those bytes applied, and a load with no bytes is `LoadError` and changes nothing. Rests on D18, D19 and D20
(log entry 19). -/
def Obligations.LoadRomCopiesImage : Prop :=
  (∀ (s : State) (bytes : List Byte), ∃ t r,
    (Session.ready s).call (.loadRom (some bytes)) = .next (.ready t, .loaded r) ∧
    (∀ (k : Nat) (h : k < bytes.length), k < 3584 → t.memRead (0x200 + k) = bytes[k]) ∧
    (∀ a, a < 0x200 ∨ 0x200 + min bytes.length 3584 ≤ a → t.memRead a = s.memRead a) ∧
    (bytes.length ≤ 3584 → r = .ok) ∧ (3584 < bytes.length → r = .romTooLarge bytes.length) ∧
    t = { s with mem := t.mem }) ∧
  (∀ s : State, (Session.ready s).call (.loadRom none) = .next (.ready s, .loaded .loadError))

/-- R255, the boot sequence: after `initialize` and `loadRom` (R252) of an image of at least two bytes, PC is 0x200 and the first step
fetches the image's first two bytes, big-endian. That an image of more than 3584 bytes is in memory too, truncated, is D18, and that a
load leaves PC is D20, both the spec's own choice (log entry 19). -/
def Obligations.BootRunsImage : Prop :=
  ∀ (m : Session) (hi lo : Byte) (rest : List Byte), ∃ s,
    m.calls [.initCore, .loadRom (some (hi :: lo :: rest))] = .next (.ready s) ∧
    s.pc = 0x200 ∧ s.fetchWord = some (wordOf hi lo)

/-- `initialize` (R250, R251): from any session the state of R40, with the bytes of the parameter FONT (R8), whatever they are, in
0..79. That `changed` is 0 is D24 (log entry 20). -/
def Obligations.InitializeResets : Prop :=
  ∀ m : Session, ∃ t, m.call .initCore = .next (.ready t, .nothing) ∧
    (∀ r, t.getV r = 0) ∧ t.index = 0 ∧ t.pc = 0x200 ∧ (∀ k : Fin 16, t.stack.get k = 0) ∧ t.sp = 0 ∧
    t.delay = 0 ∧ t.sound = 0 ∧ (∀ px py, t.pixel px py = false) ∧ t.changed = false ∧
    (∀ k, t.key k = false) ∧ t.font = m.font ∧ (∀ (a : Nat) (h : a < 80), t.memRead a = m.font.get ⟨a, h⟩) ∧
    (∀ a, 80 ≤ a → t.memRead a = 0)

/-- R237: `displayChanged` returns `changed` and changes nothing; `clearChanged` sets it to 0 and changes nothing else. -/
def Obligations.ChangedFlagAccess : Prop :=
  ∀ s : State,
    (Session.ready s).call .displayChanged = .next (.ready s, .bit s.changed) ∧
    (Session.ready s).call .clearChanged = .next (.ready { s with changed := false }, .nothing)

/-- The host reads `pixelAt` (R236; outside 64 by 32 refused, D23, log entry 11) and `soundActive` (R211; at every moment, D21, log
entry 20) return their bit and change nothing. -/
def Obligations.HostReadsChangeNothing : Prop :=
  ∀ s : State,
    (∀ (px : Fin 64) (py : Fin 32),
      (Session.ready s).call (.pixelAt px.val py.val) = .next (.ready s, .bit (s.pixel px py))) ∧
    (∀ px py : Nat, 64 ≤ px ∨ 32 ≤ py →
      (Session.ready s).call (.pixelAt px py) = .refused (.pixelOutsideDisplay px py)) ∧
    ∃ b, (Session.ready s).call .soundActive = .next (.ready s, .bit b) ∧ (b = true ↔ s.sound ≠ 0)

/-- Before the first `initialize` every other call is refused (R256, D33, log entry 10). -/
def Obligations.NothingBeforeInitialize : Prop :=
  ∀ (font : Font) (c : HostCall), c ≠ .initCore → (Session.unset font).call c = .refused .beforeInit
end

