-- ==== Sys2Proof/Laws/Decode.lean ====
section
/-! SUPPORT. The fields of a word in numbers, the fields of an assembled word, and what the masks of R74 say about them. -/

namespace Sys2Proof

@[simp] theorem regOf_regBits (r : Reg) : regOf (regBits r) = r := rfl

@[simp] theorem regBits_regOf (b : BitVec 4) : regBits (regOf b) = b := rfl

/-! ### Fields as numbers (R9: bits[hi:lo] read as an unsigned number) -/

theorem family_toNat (w : Word) : (family w).toNat = w.toNat / 4096 := by
  simp [family, BitVec.extractLsb'_toNat, Nat.shiftRight_eq_div_pow]
  omega

theorem fieldX_val (w : Word) : (fieldX w).val = w.toNat / 256 % 16 := by
  simp [fieldX, regOf, Nat.shiftRight_eq_div_pow]

theorem fieldY_val (w : Word) : (fieldY w).val = w.toNat / 16 % 16 := by
  simp [fieldY, regOf, Nat.shiftRight_eq_div_pow]

theorem lowNibble_toNat (w : Word) : (lowNibble w).toNat = w.toNat % 16 := by
  simp [lowNibble, BitVec.extractLsb'_toNat]

theorem fieldN_eq (w : Word) : fieldN w = w.toNat % 16 := lowNibble_toNat w

theorem fieldNN_toNat (w : Word) : (fieldNN w).toNat = w.toNat % 256 := by
  simp [fieldNN, BitVec.extractLsb'_toNat]

theorem fieldNNN_toNat (w : Word) : (fieldNNN w).toNat = w.toNat % 4096 := by
  simp [fieldNNN, BitVec.extractLsb'_toNat]

/-- A word is its four nibbles: the fields lose no bit. -/
theorem word_of_fields (w : Word) :
    w.toNat = (family w).toNat * 4096 + (fieldX w).val * 256 + (fieldY w).val * 16 + fieldN w := by
  rw [family_toNat, fieldX_val, fieldY_val, fieldN_eq]
  omega

/-- The one check of well-formedness (R73). -/
@[simp] theorem wellFormed_drw (x y : Reg) (n : Nat) : (Instr.drw x y n).WellFormed ↔ n < 16 := by
  simp [Instr.WellFormed, Instr.wellFormed]

/-! ### Masks (R74): `op AND mask` as a number made of the fields the mask keeps -/

theorem and_F000_toNat (w : Word) : (w &&& 0xF000#16).toNat = w.toNat / 4096 * 4096 := by
  have hi : (w &&& 0xF000#16).extractLsb' 12 4 = w.extractLsb' 12 4 := by
    ext i hi; interval_cases i <;> simp
  have lo : (w &&& 0xF000#16).extractLsb' 0 12 = 0#12 := by
    ext i hi; interval_cases i <;> simp
  have hi' := congrArg BitVec.toNat hi
  have lo' := congrArg BitVec.toNat lo
  simp only [BitVec.extractLsb'_toNat, Nat.shiftRight_eq_div_pow, BitVec.toNat_ofNat] at hi' lo'
  omega

theorem and_F00F_toNat (w : Word) : (w &&& 0xF00F#16).toNat = w.toNat / 4096 * 4096 + w.toNat % 16 := by
  have hi : (w &&& 0xF00F#16).extractLsb' 12 4 = w.extractLsb' 12 4 := by
    ext i hi; interval_cases i <;> simp
  have mid : (w &&& 0xF00F#16).extractLsb' 4 8 = 0#8 := by
    ext i hi; interval_cases i <;> simp
  have lo : (w &&& 0xF00F#16).extractLsb' 0 4 = w.extractLsb' 0 4 := by
    ext i hi; interval_cases i <;> simp
  have hi' := congrArg BitVec.toNat hi
  have mid' := congrArg BitVec.toNat mid
  have lo' := congrArg BitVec.toNat lo
  simp only [BitVec.extractLsb'_toNat, Nat.shiftRight_eq_div_pow, BitVec.toNat_ofNat] at hi' mid' lo'
  omega

theorem and_F0FF_toNat (w : Word) : (w &&& 0xF0FF#16).toNat = w.toNat / 4096 * 4096 + w.toNat % 256 := by
  have hi : (w &&& 0xF0FF#16).extractLsb' 12 4 = w.extractLsb' 12 4 := by
    ext i hi; interval_cases i <;> simp
  have mid : (w &&& 0xF0FF#16).extractLsb' 8 4 = 0#4 := by
    ext i hi; interval_cases i <;> simp
  have lo : (w &&& 0xF0FF#16).extractLsb' 0 8 = w.extractLsb' 0 8 := by
    ext i hi; interval_cases i <;> simp
  have hi' := congrArg BitVec.toNat hi
  have mid' := congrArg BitVec.toNat mid
  have lo' := congrArg BitVec.toNat lo
  simp only [BitVec.extractLsb'_toNat, Nat.shiftRight_eq_div_pow, BitVec.toNat_ofNat] at hi' mid' lo'
  omega

/-! ### Assembled words as numbers (R72) -/

@[simp] theorem regBits_toNat (r : Reg) : (regBits r).toNat = r.val := rfl

/-- `a:b` of R9 as a number: the more significant part times 2 to the width of the other, plus the other. -/
theorem append_toNat {n m : Nat} (a : BitVec n) (b : BitVec m) : (a ++ b).toNat = a.toNat * 2 ^ m + b.toNat := by
  rw [BitVec.toNat_append, ← Nat.shiftLeft_add_eq_or_of_lt b.isLt, Nat.shiftLeft_eq]

/-- Format `NNN`. -/
theorem formatNNN_toNat (f : BitVec 4) (nnn : BitVec 12) :
    BitVec.toNat (w := 16) (f ++ nnn) = f.toNat * 4096 + nnn.toNat :=
  append_toNat f nnn

/-- Format `XNN`, and format `X` with the fixed low byte as `nn`. -/
theorem formatXNN_toNat (f : BitVec 4) (x : Reg) (nn : Byte) :
    BitVec.toNat (w := 16) (f ++ regBits x ++ nn) = f.toNat * 4096 + x.val * 256 + nn.toNat := by
  have h := append_toNat (f ++ regBits x) nn
  have h' := append_toNat f (regBits x)
  rw [regBits_toNat] at h'
  have e : BitVec.toNat (w := 16) (f ++ regBits x ++ nn) = ((f ++ regBits x) ++ nn).toNat := rfl
  rw [e, h, h']
  omega

/-- Format `XYN`, and format `XY` with the fixed low nibble as `n`. -/
theorem formatXYN_toNat (f : BitVec 4) (x y : Reg) (n : BitVec 4) :
    BitVec.toNat (w := 16) (f ++ regBits x ++ regBits y ++ n) =
      f.toNat * 4096 + x.val * 256 + y.val * 16 + n.toNat := by
  have h := append_toNat (f ++ regBits x ++ regBits y) n
  have h' := append_toNat (f ++ regBits x) (regBits y)
  have h'' := append_toNat f (regBits x)
  rw [regBits_toNat] at h' h''
  have e : BitVec.toNat (w := 16) (f ++ regBits x ++ regBits y ++ n) =
    ((f ++ regBits x ++ regBits y) ++ n).toNat := rfl
  rw [e, h, h', h'']
  omega

/-! ### Words in memory (R54) -/

theorem wordOf_toNat (hi lo : Byte) : (wordOf hi lo).toNat = hi.toNat * 256 + lo.toNat := append_toNat hi lo

/-- A word is its two bytes, high byte first. -/
@[simp] theorem wordOf_bytes (w : Word) : wordOf (highByte w) (lowByte w) = w := by
  apply BitVec.eq_of_toNat_eq
  rw [wordOf_toNat]
  simp [highByte, lowByte, BitVec.extractLsb'_toNat, Nat.shiftRight_eq_div_pow]
  omega

/-- Decoding a word's two bytes is decoding the word. -/
theorem decode_bytes (w : Word) (rest : List Byte) :
    decode (highByte w :: lowByte w :: rest) =
      match decodeWord w with
      | some i => .instr i rest
      | none => .rejected (.unknownOpcode w) := by
  cases h : decodeWord w <;> simp [decode, h]

/-- The table's numbering gives the decoder's answer on the word itself. -/
theorem decodeTableWord_eq (nbits w : Nat) : decodeTableWord nbits w = decodeWord (tableWord nbits w) := by
  unfold decodeTableWord
  rw [decode_bytes]
  cases decodeWord (tableWord nbits w) <;> rfl

end Sys2Proof
end

