-- ==== Sys2Proof/Laws/Memory.lean ====
section
/-! SUPPORT. The memory laws: read after write, for every list whether canonical or not (R59), the canonical form kept by every
write, and equal reads giving equal memories. -/

namespace Sys2Proof.Config

/-! The parameters of R7 as numerals, for simp and omega. -/

@[simp] theorem memSize_eq : memSize = 4096 := rfl
@[simp] theorem fontLen_eq : fontLen = 80 := rfl
@[simp] theorem glyphBytes_eq : glyphBytes = 5 := rfl
@[simp] theorem progBase_eq : progBase = 512 := rfl
@[simp] theorem romMax_eq : romMax = 3584 := rfl
@[simp] theorem stackDepth_eq : stackDepth = 16 := rfl
@[simp] theorem dispW_eq : dispW = 64 := rfl
@[simp] theorem dispH_eq : dispH = 32 := rfl
@[simp] theorem nKeys_eq : nKeys = 16 := rfl

end Sys2Proof.Config

namespace Sys2Proof.Machine

variable {font : Font}

@[simp] theorem Memory.read_nil (a : Nat) : Memory.read font [] a = Memory.unlisted font a := rfl

theorem Memory.read_cons (c : Host.Cell) (m : Memory) (a : Nat) :
    Memory.read font (c :: m) a = if c.1 = a then c.2 else Memory.read font m a := rfl

/-- Above the font an unlisted address reads as zero (R40, R51). -/
theorem Memory.unlisted_zero {a : Nat} (h : 80 ≤ a) : Memory.unlisted font a = 0 := by
  simp [Memory.unlisted, Nat.not_lt.mpr h]

/-- An address no entry names reads as unlisted. -/
theorem Memory.read_of_not_listed {m : Memory} {a : Nat} (h : ∀ c ∈ m, c.1 ≠ a) :
    m.read font a = Memory.unlisted font a := by
  induction m with
  | nil => rfl
  | cons c m ih =>
    have hc : c.1 ≠ a := h c (by simp)
    rw [Memory.read_cons, if_neg hc]
    exact ih fun d hd => h d (by simp [hd])

theorem Memory.mem_unlist {m : Memory} {a : Nat} {c : Host.Cell} : c ∈ m.unlist a ↔ c ∈ m ∧ c.1 ≠ a := by
  simp [Memory.unlist]

theorem Memory.read_unlist (m : Memory) (a x : Nat) :
    (m.unlist a).read font x = if x = a then Memory.unlisted font a else m.read font x := by
  by_cases hx : x = a
  · subst hx
    rw [if_pos rfl]
    exact Memory.read_of_not_listed fun c hc => (Memory.mem_unlist.mp hc).2
  · rw [if_neg hx]
    induction m with
    | nil => rfl
    | cons c m ih =>
      by_cases hc : c.1 = a
      · have hcx : c.1 ≠ x := fun e => hx (e.symm.trans hc)
        have he : Memory.unlist (c :: m) a = Memory.unlist m a := by simp [Memory.unlist, hc]
        rw [he, ih, Memory.read_cons, if_neg hcx]
      · have he : Memory.unlist (c :: m) a = c :: Memory.unlist m a := by simp [Memory.unlist, hc]
        rw [he, Memory.read_cons, Memory.read_cons, ih]

theorem Memory.read_enlist {m : Memory} {a : Nat} (b : Byte) (h : ∀ c ∈ m, c.1 ≠ a) (x : Nat) :
    (m.enlist a b).read font x = if x = a then b else m.read font x := by
  induction m with
  | nil =>
    simp only [Memory.enlist, Memory.read_cons, Memory.read_nil]
    by_cases hx : x = a
    · simp [hx]
    · simp [hx, Ne.symm hx]
  | cons c m ih =>
    have hc : c.1 ≠ a := h c (by simp)
    have hm := ih fun d hd => h d (by simp [hd])
    unfold Memory.enlist
    split
    · rw [Memory.read_cons]
      by_cases hx : x = a
      · simp [hx]
      · simp [hx, Ne.symm hx]
    · rw [Memory.read_cons, Memory.read_cons, hm]
      by_cases hx : x = a
      · subst hx; simp [hc]
      · simp [hx]

/-- A read returns the last byte written to its address, and a write leaves every other address alone (R57, R59). -/
@[simp] theorem Memory.read_write (m : Memory) (a : Nat) (b : Byte) (x : Nat) :
    (m.write font a b).read font x = if x = a then b else m.read font x := by
  unfold Memory.write
  split
  · rename_i hb
    rw [Memory.read_unlist]
    by_cases hx : x = a <;> simp [hx, hb]
  · rw [Memory.read_enlist b (fun c hc => (Memory.mem_unlist.mp hc).2), Memory.read_unlist]
    by_cases hx : x = a <;> simp [hx]

theorem Memory.mem_enlist {m : Memory} {a : Nat} {b : Byte} {c : Host.Cell} :
    c ∈ m.enlist a b ↔ c = (a, b) ∨ c ∈ m := by
  induction m with
  | nil => simp [Memory.enlist]
  | cons d m ih =>
    unfold Memory.enlist
    split
    · simp
    · simp [ih, or_left_comm]

theorem Memory.pairwise_enlist {m : Memory} {a : Nat} (b : Byte) (hm : m.Pairwise fun c d => c.1 < d.1)
    (h : ∀ c ∈ m, c.1 ≠ a) : (m.enlist a b).Pairwise fun c d => c.1 < d.1 := by
  induction m with
  | nil => simp [Memory.enlist]
  | cons d m ih =>
    have hd : d.1 ≠ a := h d (by simp)
    obtain ⟨hdm, hm'⟩ := List.pairwise_cons.mp hm
    unfold Memory.enlist
    split
    · rename_i hlt
      refine List.pairwise_cons.mpr ⟨fun c hc => ?_, hm⟩
      rcases List.mem_cons.mp hc with rfl | hc'
      · exact hlt
      · exact Nat.lt_trans hlt (hdm c hc')
    · rename_i hge
      refine List.pairwise_cons.mpr ⟨fun c hc => ?_, ih hm' fun c hc => h c (by simp [hc])⟩
      rcases Memory.mem_enlist.mp hc with rfl | hc'
      · exact Nat.lt_of_le_of_ne (Nat.not_lt.mp hge) hd
      · exact hdm c hc'

theorem Memory.wf_nil : Memory.wf font [] := by simp [Memory.wf]

/-- A write inside the address space keeps the canonical form. -/
theorem Memory.wf_write {m : Memory} (hm : m.wf font) {a : Nat} (b : Byte) (ha : a < 4096) :
    (m.write font a b).wf font := by
  have he : (m.unlist a).wf font :=
    ⟨hm.1.filter _, fun c hc => hm.2 c (Memory.mem_unlist.mp hc).1⟩
  unfold Memory.write
  split
  · exact he
  · rename_i hb
    refine ⟨Memory.pairwise_enlist b he.1 fun c hc => (Memory.mem_unlist.mp hc).2, fun c hc => ?_⟩
    rcases Memory.mem_enlist.mp hc with rfl | hc'
    · exact ⟨ha, hb⟩
    · exact he.2 c hc'

/-- In a canonical memory an address is listed exactly when it does not read as unlisted. -/
theorem Memory.read_of_mem {m : Memory} (hm : m.wf font) {c : Host.Cell} (hc : c ∈ m) : m.read font c.1 = c.2 := by
  induction m with
  | nil => simp at hc
  | cons d m ih =>
    obtain ⟨hd, hp⟩ := List.pairwise_cons.mp hm.1
    have hwf : Memory.wf font m := ⟨hp, fun e he => hm.2 e (by simp [he])⟩
    rcases List.mem_cons.mp hc with rfl | hc'
    · simp [Memory.read_cons]
    · rw [Memory.read_cons, if_neg (Nat.ne_of_lt (hd c hc'))]
      exact ih hwf hc'

/-- The list of a canonical memory is fixed by its entries. -/
theorem Memory.mem_iff_read {m : Memory} (hm : m.wf font) {a : Nat} {b : Byte} :
    (a, b) ∈ m ↔ m.read font a = b ∧ b ≠ Memory.unlisted font a := by
  constructor
  · intro h
    exact ⟨Memory.read_of_mem hm h, (hm.2 _ h).2⟩
  · rintro ⟨hr, hb⟩
    by_contra hn
    apply hb
    rw [← hr]
    refine Memory.read_of_not_listed fun c hc hca => hn ?_
    have := Memory.read_of_mem hm hc
    subst hca
    rw [this] at hr
    subst hr
    exact hc

end Sys2Proof.Machine
end

