-- ==== Sys2Proof/Laws/State.lean ====
section
/-! SUPPORT. Each field of the state after each update, and each reader after an update that does not concern it: all true by
rfl and used by simp, so that no later proof unfolds a record update. -/

namespace Sys2Proof.Machine

variable (s : State)

/-- VF is register 15. -/
theorem regF_val : (regF : Reg).val = 15 := rfl

/-- `skip` is a write of PC (R11). -/
@[simp] theorem State.skip_eq_setPc : s.skip = s.setPc (s.pc + 2) := rfl

/-- The post-increment is a write of I (R184, R185). -/
@[simp] theorem State.bumpIndex_eq_setI (x : Reg) :
    s.bumpIndex x = s.setI (s.index + BitVec.ofNat 16 (x.val + 1)) := rfl

/-- The effective address is the plain sum (R53). -/
theorem State.effAddr_eq (k : Nat) : s.effAddr k = s.index.toNat + k := rfl

/-- State.reset is the reset with the default font. -/
@[simp] theorem State.reset_eq : State.reset = State.resetWith defaultFont := rfl

@[simp] theorem State.resetWith_font (font : Font) : (State.resetWith font).font = font := rfl
@[simp] theorem State.resetWith_mem (font : Font) : (State.resetWith font).mem = [] := rfl
@[simp] theorem State.resetWith_pc (font : Font) : (State.resetWith font).pc = 0x200 := rfl

/-- `initialize` keeps the machine's font. -/
@[simp] theorem State.reinit_font : s.reinit.font = s.font := rfl

/-! ### setV -/

@[simp] theorem State.setV_v (r : Reg) (b : Byte) : (s.setV r b).v = s.v.set r.val b r.isLt := rfl
@[simp] theorem State.setV_index (r : Reg) (b : Byte) : (s.setV r b).index = s.index := rfl
@[simp] theorem State.setV_pc (r : Reg) (b : Byte) : (s.setV r b).pc = s.pc := rfl
@[simp] theorem State.setV_stack (r : Reg) (b : Byte) : (s.setV r b).stack = s.stack := rfl
@[simp] theorem State.setV_sp (r : Reg) (b : Byte) : (s.setV r b).sp = s.sp := rfl
@[simp] theorem State.setV_delay (r : Reg) (b : Byte) : (s.setV r b).delay = s.delay := rfl
@[simp] theorem State.setV_sound (r : Reg) (b : Byte) : (s.setV r b).sound = s.sound := rfl
@[simp] theorem State.setV_disp (r : Reg) (b : Byte) : (s.setV r b).disp = s.disp := rfl
@[simp] theorem State.setV_changed (r : Reg) (b : Byte) : (s.setV r b).changed = s.changed := rfl
@[simp] theorem State.setV_keys (r : Reg) (b : Byte) : (s.setV r b).keys = s.keys := rfl
@[simp] theorem State.setV_mem (r : Reg) (b : Byte) : (s.setV r b).mem = s.mem := rfl
@[simp] theorem State.setV_font (r : Reg) (b : Byte) : (s.setV r b).font = s.font := rfl
@[simp] theorem State.setV_draws (r : Reg) (b : Byte) : (s.setV r b).draws = s.draws := rfl
@[simp] theorem State.setV_result (r : Reg) (b : Byte) : (s.setV r b).result = s.result := rfl
@[simp] theorem State.memRead_setV (r : Reg) (b : Byte) (n : Nat) : (s.setV r b).memRead n = s.memRead n := rfl
@[simp] theorem State.pixel_setV (r : Reg) (b : Byte) (cx : Fin 64) (cy : Fin 32) :
    (s.setV r b).pixel cx cy = s.pixel cx cy := rfl
@[simp] theorem State.key_setV (r : Reg) (b : Byte) (j : Fin 16) : (s.setV r b).key j = s.key j := rfl
@[simp] theorem State.effAddr_setV (r : Reg) (b : Byte) (n : Nat) : (s.setV r b).effAddr n = s.effAddr n := rfl

/-! ### setI -/

@[simp] theorem State.setI_v (w : Word) : (s.setI w).v = s.v := rfl
@[simp] theorem State.setI_index (w : Word) : (s.setI w).index = w := rfl
@[simp] theorem State.setI_pc (w : Word) : (s.setI w).pc = s.pc := rfl
@[simp] theorem State.setI_stack (w : Word) : (s.setI w).stack = s.stack := rfl
@[simp] theorem State.setI_sp (w : Word) : (s.setI w).sp = s.sp := rfl
@[simp] theorem State.setI_delay (w : Word) : (s.setI w).delay = s.delay := rfl
@[simp] theorem State.setI_sound (w : Word) : (s.setI w).sound = s.sound := rfl
@[simp] theorem State.setI_disp (w : Word) : (s.setI w).disp = s.disp := rfl
@[simp] theorem State.setI_changed (w : Word) : (s.setI w).changed = s.changed := rfl
@[simp] theorem State.setI_keys (w : Word) : (s.setI w).keys = s.keys := rfl
@[simp] theorem State.setI_mem (w : Word) : (s.setI w).mem = s.mem := rfl
@[simp] theorem State.setI_font (w : Word) : (s.setI w).font = s.font := rfl
@[simp] theorem State.setI_draws (w : Word) : (s.setI w).draws = s.draws := rfl
@[simp] theorem State.setI_result (w : Word) : (s.setI w).result = s.result := rfl
@[simp] theorem State.getV_setI (w : Word) (q : Reg) : (s.setI w).getV q = s.getV q := rfl
@[simp] theorem State.memRead_setI (w : Word) (n : Nat) : (s.setI w).memRead n = s.memRead n := rfl
@[simp] theorem State.pixel_setI (w : Word) (cx : Fin 64) (cy : Fin 32) :
    (s.setI w).pixel cx cy = s.pixel cx cy := rfl
@[simp] theorem State.key_setI (w : Word) (j : Fin 16) : (s.setI w).key j = s.key j := rfl

/-! ### setPc -/

@[simp] theorem State.setPc_v (w : Word) : (s.setPc w).v = s.v := rfl
@[simp] theorem State.setPc_index (w : Word) : (s.setPc w).index = s.index := rfl
@[simp] theorem State.setPc_pc (w : Word) : (s.setPc w).pc = w := rfl
@[simp] theorem State.setPc_stack (w : Word) : (s.setPc w).stack = s.stack := rfl
@[simp] theorem State.setPc_sp (w : Word) : (s.setPc w).sp = s.sp := rfl
@[simp] theorem State.setPc_delay (w : Word) : (s.setPc w).delay = s.delay := rfl
@[simp] theorem State.setPc_sound (w : Word) : (s.setPc w).sound = s.sound := rfl
@[simp] theorem State.setPc_disp (w : Word) : (s.setPc w).disp = s.disp := rfl
@[simp] theorem State.setPc_changed (w : Word) : (s.setPc w).changed = s.changed := rfl
@[simp] theorem State.setPc_keys (w : Word) : (s.setPc w).keys = s.keys := rfl
@[simp] theorem State.setPc_mem (w : Word) : (s.setPc w).mem = s.mem := rfl
@[simp] theorem State.setPc_font (w : Word) : (s.setPc w).font = s.font := rfl
@[simp] theorem State.setPc_draws (w : Word) : (s.setPc w).draws = s.draws := rfl
@[simp] theorem State.setPc_result (w : Word) : (s.setPc w).result = s.result := rfl
@[simp] theorem State.getV_setPc (w : Word) (q : Reg) : (s.setPc w).getV q = s.getV q := rfl
@[simp] theorem State.memRead_setPc (w : Word) (n : Nat) : (s.setPc w).memRead n = s.memRead n := rfl
@[simp] theorem State.pixel_setPc (w : Word) (cx : Fin 64) (cy : Fin 32) :
    (s.setPc w).pixel cx cy = s.pixel cx cy := rfl
@[simp] theorem State.key_setPc (w : Word) (j : Fin 16) : (s.setPc w).key j = s.key j := rfl
@[simp] theorem State.effAddr_setPc (w : Word) (n : Nat) : (s.setPc w).effAddr n = s.effAddr n := rfl

/-! ### setDelay -/

@[simp] theorem State.setDelay_v (b : Byte) : (s.setDelay b).v = s.v := rfl
@[simp] theorem State.setDelay_index (b : Byte) : (s.setDelay b).index = s.index := rfl
@[simp] theorem State.setDelay_pc (b : Byte) : (s.setDelay b).pc = s.pc := rfl
@[simp] theorem State.setDelay_stack (b : Byte) : (s.setDelay b).stack = s.stack := rfl
@[simp] theorem State.setDelay_sp (b : Byte) : (s.setDelay b).sp = s.sp := rfl
@[simp] theorem State.setDelay_delay (b : Byte) : (s.setDelay b).delay = b := rfl
@[simp] theorem State.setDelay_sound (b : Byte) : (s.setDelay b).sound = s.sound := rfl
@[simp] theorem State.setDelay_disp (b : Byte) : (s.setDelay b).disp = s.disp := rfl
@[simp] theorem State.setDelay_changed (b : Byte) : (s.setDelay b).changed = s.changed := rfl
@[simp] theorem State.setDelay_keys (b : Byte) : (s.setDelay b).keys = s.keys := rfl
@[simp] theorem State.setDelay_mem (b : Byte) : (s.setDelay b).mem = s.mem := rfl
@[simp] theorem State.setDelay_font (b : Byte) : (s.setDelay b).font = s.font := rfl
@[simp] theorem State.setDelay_draws (b : Byte) : (s.setDelay b).draws = s.draws := rfl
@[simp] theorem State.setDelay_result (b : Byte) : (s.setDelay b).result = s.result := rfl
@[simp] theorem State.getV_setDelay (b : Byte) (q : Reg) : (s.setDelay b).getV q = s.getV q := rfl
@[simp] theorem State.memRead_setDelay (b : Byte) (n : Nat) : (s.setDelay b).memRead n = s.memRead n := rfl
@[simp] theorem State.pixel_setDelay (b : Byte) (cx : Fin 64) (cy : Fin 32) :
    (s.setDelay b).pixel cx cy = s.pixel cx cy := rfl
@[simp] theorem State.key_setDelay (b : Byte) (j : Fin 16) : (s.setDelay b).key j = s.key j := rfl
@[simp] theorem State.effAddr_setDelay (b : Byte) (n : Nat) : (s.setDelay b).effAddr n = s.effAddr n := rfl

/-! ### setSound -/

@[simp] theorem State.setSound_v (b : Byte) : (s.setSound b).v = s.v := rfl
@[simp] theorem State.setSound_index (b : Byte) : (s.setSound b).index = s.index := rfl
@[simp] theorem State.setSound_pc (b : Byte) : (s.setSound b).pc = s.pc := rfl
@[simp] theorem State.setSound_stack (b : Byte) : (s.setSound b).stack = s.stack := rfl
@[simp] theorem State.setSound_sp (b : Byte) : (s.setSound b).sp = s.sp := rfl
@[simp] theorem State.setSound_delay (b : Byte) : (s.setSound b).delay = s.delay := rfl
@[simp] theorem State.setSound_sound (b : Byte) : (s.setSound b).sound = b := rfl
@[simp] theorem State.setSound_disp (b : Byte) : (s.setSound b).disp = s.disp := rfl
@[simp] theorem State.setSound_changed (b : Byte) : (s.setSound b).changed = s.changed := rfl
@[simp] theorem State.setSound_keys (b : Byte) : (s.setSound b).keys = s.keys := rfl
@[simp] theorem State.setSound_mem (b : Byte) : (s.setSound b).mem = s.mem := rfl
@[simp] theorem State.setSound_font (b : Byte) : (s.setSound b).font = s.font := rfl
@[simp] theorem State.setSound_draws (b : Byte) : (s.setSound b).draws = s.draws := rfl
@[simp] theorem State.setSound_result (b : Byte) : (s.setSound b).result = s.result := rfl
@[simp] theorem State.getV_setSound (b : Byte) (q : Reg) : (s.setSound b).getV q = s.getV q := rfl
@[simp] theorem State.memRead_setSound (b : Byte) (n : Nat) : (s.setSound b).memRead n = s.memRead n := rfl
@[simp] theorem State.pixel_setSound (b : Byte) (cx : Fin 64) (cy : Fin 32) :
    (s.setSound b).pixel cx cy = s.pixel cx cy := rfl
@[simp] theorem State.key_setSound (b : Byte) (j : Fin 16) : (s.setSound b).key j = s.key j := rfl
@[simp] theorem State.effAddr_setSound (b : Byte) (n : Nat) : (s.setSound b).effAddr n = s.effAddr n := rfl

/-! ### setChanged -/

@[simp] theorem State.setChanged_v (b : Bool) : (s.setChanged b).v = s.v := rfl
@[simp] theorem State.setChanged_index (b : Bool) : (s.setChanged b).index = s.index := rfl
@[simp] theorem State.setChanged_pc (b : Bool) : (s.setChanged b).pc = s.pc := rfl
@[simp] theorem State.setChanged_stack (b : Bool) : (s.setChanged b).stack = s.stack := rfl
@[simp] theorem State.setChanged_sp (b : Bool) : (s.setChanged b).sp = s.sp := rfl
@[simp] theorem State.setChanged_delay (b : Bool) : (s.setChanged b).delay = s.delay := rfl
@[simp] theorem State.setChanged_sound (b : Bool) : (s.setChanged b).sound = s.sound := rfl
@[simp] theorem State.setChanged_disp (b : Bool) : (s.setChanged b).disp = s.disp := rfl
@[simp] theorem State.setChanged_changed (b : Bool) : (s.setChanged b).changed = b := rfl
@[simp] theorem State.setChanged_keys (b : Bool) : (s.setChanged b).keys = s.keys := rfl
@[simp] theorem State.setChanged_mem (b : Bool) : (s.setChanged b).mem = s.mem := rfl
@[simp] theorem State.setChanged_font (b : Bool) : (s.setChanged b).font = s.font := rfl
@[simp] theorem State.setChanged_draws (b : Bool) : (s.setChanged b).draws = s.draws := rfl
@[simp] theorem State.setChanged_result (b : Bool) : (s.setChanged b).result = s.result := rfl
@[simp] theorem State.getV_setChanged (b : Bool) (q : Reg) : (s.setChanged b).getV q = s.getV q := rfl
@[simp] theorem State.memRead_setChanged (b : Bool) (n : Nat) : (s.setChanged b).memRead n = s.memRead n := rfl
@[simp] theorem State.pixel_setChanged (b : Bool) (cx : Fin 64) (cy : Fin 32) :
    (s.setChanged b).pixel cx cy = s.pixel cx cy := rfl
@[simp] theorem State.key_setChanged (b : Bool) (j : Fin 16) : (s.setChanged b).key j = s.key j := rfl
@[simp] theorem State.effAddr_setChanged (b : Bool) (n : Nat) : (s.setChanged b).effAddr n = s.effAddr n := rfl

/-! ### memWrite -/

@[simp] theorem State.memWrite_v (a : Nat) (b : Byte) : (s.memWrite a b).v = s.v := rfl
@[simp] theorem State.memWrite_index (a : Nat) (b : Byte) : (s.memWrite a b).index = s.index := rfl
@[simp] theorem State.memWrite_pc (a : Nat) (b : Byte) : (s.memWrite a b).pc = s.pc := rfl
@[simp] theorem State.memWrite_stack (a : Nat) (b : Byte) : (s.memWrite a b).stack = s.stack := rfl
@[simp] theorem State.memWrite_sp (a : Nat) (b : Byte) : (s.memWrite a b).sp = s.sp := rfl
@[simp] theorem State.memWrite_delay (a : Nat) (b : Byte) : (s.memWrite a b).delay = s.delay := rfl
@[simp] theorem State.memWrite_sound (a : Nat) (b : Byte) : (s.memWrite a b).sound = s.sound := rfl
@[simp] theorem State.memWrite_disp (a : Nat) (b : Byte) : (s.memWrite a b).disp = s.disp := rfl
@[simp] theorem State.memWrite_changed (a : Nat) (b : Byte) : (s.memWrite a b).changed = s.changed := rfl
@[simp] theorem State.memWrite_keys (a : Nat) (b : Byte) : (s.memWrite a b).keys = s.keys := rfl
@[simp] theorem State.memWrite_mem (a : Nat) (b : Byte) : (s.memWrite a b).mem = s.mem.write s.font a b := rfl
@[simp] theorem State.memWrite_font (a : Nat) (b : Byte) : (s.memWrite a b).font = s.font := rfl
@[simp] theorem State.memWrite_draws (a : Nat) (b : Byte) : (s.memWrite a b).draws = s.draws := rfl
@[simp] theorem State.memWrite_result (a : Nat) (b : Byte) : (s.memWrite a b).result = s.result := rfl
@[simp] theorem State.getV_memWrite (a : Nat) (b : Byte) (q : Reg) : (s.memWrite a b).getV q = s.getV q := rfl
@[simp] theorem State.pixel_memWrite (a : Nat) (b : Byte) (cx : Fin 64) (cy : Fin 32) :
    (s.memWrite a b).pixel cx cy = s.pixel cx cy := rfl
@[simp] theorem State.key_memWrite (a : Nat) (b : Byte) (j : Fin 16) : (s.memWrite a b).key j = s.key j := rfl
@[simp] theorem State.effAddr_memWrite (a : Nat) (b : Byte) (n : Nat) :
    (s.memWrite a b).effAddr n = s.effAddr n := rfl

/-! ### raise -/

@[simp] theorem State.raise_v (k : ErrKind) (op : Option Word) (addr : Option Nat) :
    (s.raise k op addr).v = s.v := rfl
@[simp] theorem State.raise_index (k : ErrKind) (op : Option Word) (addr : Option Nat) :
    (s.raise k op addr).index = s.index := rfl
@[simp] theorem State.raise_pc (k : ErrKind) (op : Option Word) (addr : Option Nat) :
    (s.raise k op addr).pc = s.pc := rfl
@[simp] theorem State.raise_stack (k : ErrKind) (op : Option Word) (addr : Option Nat) :
    (s.raise k op addr).stack = s.stack := rfl
@[simp] theorem State.raise_sp (k : ErrKind) (op : Option Word) (addr : Option Nat) :
    (s.raise k op addr).sp = s.sp := rfl
@[simp] theorem State.raise_delay (k : ErrKind) (op : Option Word) (addr : Option Nat) :
    (s.raise k op addr).delay = s.delay := rfl
@[simp] theorem State.raise_sound (k : ErrKind) (op : Option Word) (addr : Option Nat) :
    (s.raise k op addr).sound = s.sound := rfl
@[simp] theorem State.raise_disp (k : ErrKind) (op : Option Word) (addr : Option Nat) :
    (s.raise k op addr).disp = s.disp := rfl
@[simp] theorem State.raise_changed (k : ErrKind) (op : Option Word) (addr : Option Nat) :
    (s.raise k op addr).changed = s.changed := rfl
@[simp] theorem State.raise_keys (k : ErrKind) (op : Option Word) (addr : Option Nat) :
    (s.raise k op addr).keys = s.keys := rfl
@[simp] theorem State.raise_mem (k : ErrKind) (op : Option Word) (addr : Option Nat) :
    (s.raise k op addr).mem = s.mem := rfl
@[simp] theorem State.raise_font (k : ErrKind) (op : Option Word) (addr : Option Nat) :
    (s.raise k op addr).font = s.font := rfl
@[simp] theorem State.raise_draws (k : ErrKind) (op : Option Word) (addr : Option Nat) :
    (s.raise k op addr).draws = s.draws := rfl
@[simp] theorem State.raise_result (k : ErrKind) (op : Option Word) (addr : Option Nat) :
    (s.raise k op addr).result = .err k ⟨op, addr⟩ := rfl
@[simp] theorem State.getV_raise (k : ErrKind) (op : Option Word) (addr : Option Nat) (q : Reg) :
    (s.raise k op addr).getV q = s.getV q := rfl
@[simp] theorem State.memRead_raise (k : ErrKind) (op : Option Word) (addr : Option Nat) (n : Nat) :
    (s.raise k op addr).memRead n = s.memRead n := rfl
@[simp] theorem State.pixel_raise (k : ErrKind) (op : Option Word) (addr : Option Nat) (cx : Fin 64) (cy : Fin 32) :
    (s.raise k op addr).pixel cx cy = s.pixel cx cy := rfl
@[simp] theorem State.key_raise (k : ErrKind) (op : Option Word) (addr : Option Nat) (j : Fin 16) :
    (s.raise k op addr).key j = s.key j := rfl
@[simp] theorem State.effAddr_raise (k : ErrKind) (op : Option Word) (addr : Option Nat) (n : Nat) :
    (s.raise k op addr).effAddr n = s.effAddr n := rfl

/-! ### diagnose -/

@[simp] theorem State.diagnose_v (d : Diag) : (s.diagnose d).v = s.v := rfl
@[simp] theorem State.diagnose_index (d : Diag) : (s.diagnose d).index = s.index := rfl
@[simp] theorem State.diagnose_pc (d : Diag) : (s.diagnose d).pc = s.pc := rfl
@[simp] theorem State.diagnose_stack (d : Diag) : (s.diagnose d).stack = s.stack := rfl
@[simp] theorem State.diagnose_sp (d : Diag) : (s.diagnose d).sp = s.sp := rfl
@[simp] theorem State.diagnose_delay (d : Diag) : (s.diagnose d).delay = s.delay := rfl
@[simp] theorem State.diagnose_sound (d : Diag) : (s.diagnose d).sound = s.sound := rfl
@[simp] theorem State.diagnose_disp (d : Diag) : (s.diagnose d).disp = s.disp := rfl
@[simp] theorem State.diagnose_changed (d : Diag) : (s.diagnose d).changed = s.changed := rfl
@[simp] theorem State.diagnose_keys (d : Diag) : (s.diagnose d).keys = s.keys := rfl
@[simp] theorem State.diagnose_mem (d : Diag) : (s.diagnose d).mem = s.mem := rfl
@[simp] theorem State.diagnose_font (d : Diag) : (s.diagnose d).font = s.font := rfl
@[simp] theorem State.diagnose_draws (d : Diag) : (s.diagnose d).draws = s.draws := rfl
@[simp] theorem State.diagnose_result (d : Diag) : (s.diagnose d).result = .ok (some d) := rfl
@[simp] theorem State.getV_diagnose (d : Diag) (q : Reg) : (s.diagnose d).getV q = s.getV q := rfl
@[simp] theorem State.memRead_diagnose (d : Diag) (n : Nat) : (s.diagnose d).memRead n = s.memRead n := rfl
@[simp] theorem State.pixel_diagnose (d : Diag) (cx : Fin 64) (cy : Fin 32) :
    (s.diagnose d).pixel cx cy = s.pixel cx cy := rfl
@[simp] theorem State.key_diagnose (d : Diag) (j : Fin 16) : (s.diagnose d).key j = s.key j := rfl
@[simp] theorem State.effAddr_diagnose (d : Diag) (n : Nat) : (s.diagnose d).effAddr n = s.effAddr n := rfl

/-! ### clearDisplay -/

@[simp] theorem State.clearDisplay_v : (s.clearDisplay).v = s.v := rfl
@[simp] theorem State.clearDisplay_index : (s.clearDisplay).index = s.index := rfl
@[simp] theorem State.clearDisplay_pc : (s.clearDisplay).pc = s.pc := rfl
@[simp] theorem State.clearDisplay_stack : (s.clearDisplay).stack = s.stack := rfl
@[simp] theorem State.clearDisplay_sp : (s.clearDisplay).sp = s.sp := rfl
@[simp] theorem State.clearDisplay_delay : (s.clearDisplay).delay = s.delay := rfl
@[simp] theorem State.clearDisplay_sound : (s.clearDisplay).sound = s.sound := rfl
@[simp] theorem State.clearDisplay_disp : (s.clearDisplay).disp = blankDisplay := rfl
@[simp] theorem State.clearDisplay_changed : (s.clearDisplay).changed = s.changed := rfl
@[simp] theorem State.clearDisplay_keys : (s.clearDisplay).keys = s.keys := rfl
@[simp] theorem State.clearDisplay_mem : (s.clearDisplay).mem = s.mem := rfl
@[simp] theorem State.clearDisplay_font : (s.clearDisplay).font = s.font := rfl
@[simp] theorem State.clearDisplay_draws : (s.clearDisplay).draws = s.draws := rfl
@[simp] theorem State.clearDisplay_result : (s.clearDisplay).result = s.result := rfl
@[simp] theorem State.getV_clearDisplay (q : Reg) : (s.clearDisplay).getV q = s.getV q := rfl
@[simp] theorem State.memRead_clearDisplay (n : Nat) : (s.clearDisplay).memRead n = s.memRead n := rfl
@[simp] theorem State.key_clearDisplay (j : Fin 16) : (s.clearDisplay).key j = s.key j := rfl
@[simp] theorem State.effAddr_clearDisplay (n : Nat) : (s.clearDisplay).effAddr n = s.effAddr n := rfl

/-! ### setPixel -/

@[simp] theorem State.setPixel_v (px : Fin 64) (py : Fin 32) (b : Bool) : (s.setPixel px py b).v = s.v := rfl
@[simp] theorem State.setPixel_index (px : Fin 64) (py : Fin 32) (b : Bool) :
    (s.setPixel px py b).index = s.index := rfl
@[simp] theorem State.setPixel_pc (px : Fin 64) (py : Fin 32) (b : Bool) : (s.setPixel px py b).pc = s.pc := rfl
@[simp] theorem State.setPixel_stack (px : Fin 64) (py : Fin 32) (b : Bool) :
    (s.setPixel px py b).stack = s.stack := rfl
@[simp] theorem State.setPixel_sp (px : Fin 64) (py : Fin 32) (b : Bool) : (s.setPixel px py b).sp = s.sp := rfl
@[simp] theorem State.setPixel_delay (px : Fin 64) (py : Fin 32) (b : Bool) :
    (s.setPixel px py b).delay = s.delay := rfl
@[simp] theorem State.setPixel_sound (px : Fin 64) (py : Fin 32) (b : Bool) :
    (s.setPixel px py b).sound = s.sound := rfl
@[simp] theorem State.setPixel_disp (px : Fin 64) (py : Fin 32) (b : Bool) :
    (s.setPixel px py b).disp = s.disp.set py.val ((s.disp.get py).set px.val b px.isLt) py.isLt := rfl
@[simp] theorem State.setPixel_changed (px : Fin 64) (py : Fin 32) (b : Bool) :
    (s.setPixel px py b).changed = s.changed := rfl
@[simp] theorem State.setPixel_keys (px : Fin 64) (py : Fin 32) (b : Bool) : (s.setPixel px py b).keys = s.keys := rfl
@[simp] theorem State.setPixel_mem (px : Fin 64) (py : Fin 32) (b : Bool) : (s.setPixel px py b).mem = s.mem := rfl
@[simp] theorem State.setPixel_font (px : Fin 64) (py : Fin 32) (b : Bool) : (s.setPixel px py b).font = s.font := rfl
@[simp] theorem State.setPixel_draws (px : Fin 64) (py : Fin 32) (b : Bool) :
    (s.setPixel px py b).draws = s.draws := rfl
@[simp] theorem State.setPixel_result (px : Fin 64) (py : Fin 32) (b : Bool) :
    (s.setPixel px py b).result = s.result := rfl
@[simp] theorem State.getV_setPixel (px : Fin 64) (py : Fin 32) (b : Bool) (q : Reg) :
    (s.setPixel px py b).getV q = s.getV q := rfl
@[simp] theorem State.memRead_setPixel (px : Fin 64) (py : Fin 32) (b : Bool) (n : Nat) :
    (s.setPixel px py b).memRead n = s.memRead n := rfl
@[simp] theorem State.key_setPixel (px : Fin 64) (py : Fin 32) (b : Bool) (j : Fin 16) :
    (s.setPixel px py b).key j = s.key j := rfl
@[simp] theorem State.effAddr_setPixel (px : Fin 64) (py : Fin 32) (b : Bool) (n : Nat) :
    (s.setPixel px py b).effAddr n = s.effAddr n := rfl

/-! ### setKeyBit -/

@[simp] theorem State.setKeyBit_v (k : Fin 16) (b : Bool) : (s.setKeyBit k b).v = s.v := rfl
@[simp] theorem State.setKeyBit_index (k : Fin 16) (b : Bool) : (s.setKeyBit k b).index = s.index := rfl
@[simp] theorem State.setKeyBit_pc (k : Fin 16) (b : Bool) : (s.setKeyBit k b).pc = s.pc := rfl
@[simp] theorem State.setKeyBit_stack (k : Fin 16) (b : Bool) : (s.setKeyBit k b).stack = s.stack := rfl
@[simp] theorem State.setKeyBit_sp (k : Fin 16) (b : Bool) : (s.setKeyBit k b).sp = s.sp := rfl
@[simp] theorem State.setKeyBit_delay (k : Fin 16) (b : Bool) : (s.setKeyBit k b).delay = s.delay := rfl
@[simp] theorem State.setKeyBit_sound (k : Fin 16) (b : Bool) : (s.setKeyBit k b).sound = s.sound := rfl
@[simp] theorem State.setKeyBit_disp (k : Fin 16) (b : Bool) : (s.setKeyBit k b).disp = s.disp := rfl
@[simp] theorem State.setKeyBit_changed (k : Fin 16) (b : Bool) : (s.setKeyBit k b).changed = s.changed := rfl
@[simp] theorem State.setKeyBit_keys (k : Fin 16) (b : Bool) :
    (s.setKeyBit k b).keys = s.keys.set k.val b k.isLt := rfl
@[simp] theorem State.setKeyBit_mem (k : Fin 16) (b : Bool) : (s.setKeyBit k b).mem = s.mem := rfl
@[simp] theorem State.setKeyBit_font (k : Fin 16) (b : Bool) : (s.setKeyBit k b).font = s.font := rfl
@[simp] theorem State.setKeyBit_draws (k : Fin 16) (b : Bool) : (s.setKeyBit k b).draws = s.draws := rfl
@[simp] theorem State.setKeyBit_result (k : Fin 16) (b : Bool) : (s.setKeyBit k b).result = s.result := rfl
@[simp] theorem State.getV_setKeyBit (k : Fin 16) (b : Bool) (q : Reg) : (s.setKeyBit k b).getV q = s.getV q := rfl
@[simp] theorem State.memRead_setKeyBit (k : Fin 16) (b : Bool) (n : Nat) :
    (s.setKeyBit k b).memRead n = s.memRead n := rfl
@[simp] theorem State.pixel_setKeyBit (k : Fin 16) (b : Bool) (cx : Fin 64) (cy : Fin 32) :
    (s.setKeyBit k b).pixel cx cy = s.pixel cx cy := rfl
@[simp] theorem State.effAddr_setKeyBit (k : Fin 16) (b : Bool) (n : Nat) :
    (s.setKeyBit k b).effAddr n = s.effAddr n := rfl

/-! ### nextDraw -/

@[simp] theorem State.nextDraw_v : (s.nextDraw).v = s.v := rfl
@[simp] theorem State.nextDraw_index : (s.nextDraw).index = s.index := rfl
@[simp] theorem State.nextDraw_pc : (s.nextDraw).pc = s.pc := rfl
@[simp] theorem State.nextDraw_stack : (s.nextDraw).stack = s.stack := rfl
@[simp] theorem State.nextDraw_sp : (s.nextDraw).sp = s.sp := rfl
@[simp] theorem State.nextDraw_delay : (s.nextDraw).delay = s.delay := rfl
@[simp] theorem State.nextDraw_sound : (s.nextDraw).sound = s.sound := rfl
@[simp] theorem State.nextDraw_disp : (s.nextDraw).disp = s.disp := rfl
@[simp] theorem State.nextDraw_changed : (s.nextDraw).changed = s.changed := rfl
@[simp] theorem State.nextDraw_keys : (s.nextDraw).keys = s.keys := rfl
@[simp] theorem State.nextDraw_mem : (s.nextDraw).mem = s.mem := rfl
@[simp] theorem State.nextDraw_font : (s.nextDraw).font = s.font := rfl
@[simp] theorem State.nextDraw_draws : (s.nextDraw).draws = s.draws + 1 := rfl
@[simp] theorem State.nextDraw_result : (s.nextDraw).result = s.result := rfl
@[simp] theorem State.getV_nextDraw (q : Reg) : (s.nextDraw).getV q = s.getV q := rfl
@[simp] theorem State.memRead_nextDraw (n : Nat) : (s.nextDraw).memRead n = s.memRead n := rfl
@[simp] theorem State.pixel_nextDraw (cx : Fin 64) (cy : Fin 32) : (s.nextDraw).pixel cx cy = s.pixel cx cy := rfl
@[simp] theorem State.key_nextDraw (j : Fin 16) : (s.nextDraw).key j = s.key j := rfl
@[simp] theorem State.effAddr_nextDraw (n : Nat) : (s.nextDraw).effAddr n = s.effAddr n := rfl

/-! ### advance -/

@[simp] theorem State.advance_v : (s.advance).v = s.v := rfl
@[simp] theorem State.advance_index : (s.advance).index = s.index := rfl
@[simp] theorem State.advance_pc : (s.advance).pc = s.pc + 2 := rfl
@[simp] theorem State.advance_stack : (s.advance).stack = s.stack := rfl
@[simp] theorem State.advance_sp : (s.advance).sp = s.sp := rfl
@[simp] theorem State.advance_delay : (s.advance).delay = s.delay := rfl
@[simp] theorem State.advance_sound : (s.advance).sound = s.sound := rfl
@[simp] theorem State.advance_disp : (s.advance).disp = s.disp := rfl
@[simp] theorem State.advance_changed : (s.advance).changed = s.changed := rfl
@[simp] theorem State.advance_keys : (s.advance).keys = s.keys := rfl
@[simp] theorem State.advance_mem : (s.advance).mem = s.mem := rfl
@[simp] theorem State.advance_font : (s.advance).font = s.font := rfl
@[simp] theorem State.advance_draws : (s.advance).draws = s.draws := rfl
@[simp] theorem State.advance_result : (s.advance).result = .ok none := rfl
@[simp] theorem State.getV_advance (q : Reg) : (s.advance).getV q = s.getV q := rfl
@[simp] theorem State.memRead_advance (n : Nat) : (s.advance).memRead n = s.memRead n := rfl
@[simp] theorem State.pixel_advance (cx : Fin 64) (cy : Fin 32) : (s.advance).pixel cx cy = s.pixel cx cy := rfl
@[simp] theorem State.key_advance (j : Fin 16) : (s.advance).key j = s.key j := rfl
@[simp] theorem State.effAddr_advance (n : Nat) : (s.advance).effAddr n = s.effAddr n := rfl

end Sys2Proof.Machine
end

