-- ==== Sys2Proof/Laws/Ops.lean ====
section
/-! SUPPORT. One lemma per shared operation, saying what it does: registers, pixels, keys, memory, the call stack, the free
draws, register blocks and fetching. Later proofs cite these and do not unfold the operations. -/

namespace Sys2Proof.Machine

variable (s : State)

/-! ### Registers -/

/-- A register holds the last value written to it, and a write leaves every other register alone (R20). -/
@[simp] theorem State.getV_setV (r : Reg) (b : Byte) (q : Reg) :
    (s.setV r b).getV q = if q = r then b else s.getV q := by
  have hq := q.isLt
  simp only [State.getV, State.setV, Vector.get_eq_getElem, Vector.getElem_set]
  by_cases h : q = r
  · simp [h]
  · have hv : r.val ≠ q.val := fun e => h (Fin.ext e.symm)
    simp [h, hv]

/-- States that differ in V only are equal when their registers are. -/
theorem State.v_ext {s t : State} (h : ∀ r, s.getV r = t.getV r) : s.v = t.v := by
  apply Vector.ext
  intro i hi
  have := h ⟨i, hi⟩
  simpa [State.getV, Vector.get_eq_getElem] using this

/-- Writing a register the value it holds changes nothing. -/
theorem State.setV_getV (r : Reg) : s.setV r (s.getV r) = s := by
  have : (s.setV r (s.getV r)).v = s.v := State.v_ext fun q => by
    by_cases h : q = r <;> simp [h]
  exact State.ext this rfl rfl rfl rfl rfl rfl rfl rfl rfl rfl rfl rfl rfl

theorem State.getV_skipIf (c : Bool) (q : Reg) : (s.skipIf c).getV q = s.getV q := by
  cases c <;> rfl

/-- The one effect of a skip is on PC (R11). -/
theorem State.skipIf_eq (c : Bool) : s.skipIf c = s.setPc (if c then s.pc + 2 else s.pc) := by
  cases c <;> rfl

@[simp] theorem State.getV_resetWith (font : Font) (r : Reg) : (State.resetWith font).getV r = 0 := by
  simp [State.getV, State.resetWith, Vector.get_eq_getElem]

/-! ### Display -/

@[simp] theorem State.pixel_setPixel (px : Fin 64) (py : Fin 32) (b : Bool) (qx : Fin 64) (qy : Fin 32) :
    (s.setPixel px py b).pixel qx qy = if qx = px ∧ qy = py then b else s.pixel qx qy := by
  have hy := qy.isLt
  have hx := qx.isLt
  simp only [State.pixel, State.setPixel, Vector.get_eq_getElem, Vector.getElem_set]
  by_cases h : qy = py
  · subst h
    simp only [and_true, ite_true, Vector.getElem_set]
    by_cases h' : qx = px
    · simp [h']
    · have : px.val ≠ qx.val := fun e => h' (Fin.ext e.symm)
      simp [h', this]
  · have : py.val ≠ qy.val := fun e => h (Fin.ext e.symm)
    simp [h, this]

@[simp] theorem State.pixel_clearDisplay (qx : Fin 64) (qy : Fin 32) : s.clearDisplay.pixel qx qy = false := by
  simp [State.pixel, State.clearDisplay, blankDisplay, Vector.get_eq_getElem]

@[simp] theorem State.pixel_resetWith (font : Font) (qx : Fin 64) (qy : Fin 32) :
    (State.resetWith font).pixel qx qy = false := by
  simp [State.pixel, State.resetWith, blankDisplay, Vector.get_eq_getElem]

/-- Displays with equal pixels are equal. -/
theorem State.disp_ext {s t : State} (h : ∀ px py, s.pixel px py = t.pixel px py) : s.disp = t.disp := by
  apply Vector.ext
  intro j hj
  apply Vector.ext
  intro i hi
  have := h ⟨i, hi⟩ ⟨j, hj⟩
  simpa [State.pixel, Vector.get_eq_getElem] using this

/-- Flipping a pixel XORs it with 1 and leaves every other pixel alone (R112). -/
@[simp] theorem State.pixel_flipPixel (px : Fin 64) (py : Fin 32) (qx : Fin 64) (qy : Fin 32) :
    (s.flipPixel px py).pixel qx qy = if qx = px ∧ qy = py then !s.pixel px py else s.pixel qx qy := by
  unfold State.flipPixel
  split
  · rename_i h; simp [h]
  · rename_i h; simp [Bool.not_eq_true _ ▸ h]

/-- Flipping a pixel that is on sets VF; no other register changes (R112). -/
@[simp] theorem State.getV_flipPixel (px : Fin 64) (py : Fin 32) (q : Reg) :
    (s.flipPixel px py).getV q = if q = regF ∧ s.pixel px py = true then 1 else s.getV q := by
  unfold State.flipPixel
  split
  · rename_i h; simp [h]
  · rename_i h; simp [h]

/-- Flipping a pixel changes V and the display only. -/
theorem State.flipPixel_frame (px : Fin 64) (py : Fin 32) :
    s.flipPixel px py = { s with v := (s.flipPixel px py).v, disp := (s.flipPixel px py).disp } := by
  unfold State.flipPixel
  split <;> rfl

/-! ### Keypad -/

@[simp] theorem State.key_setKeyBit (k : Fin 16) (b : Bool) (j : Fin 16) :
    (s.setKeyBit k b).key j = if j = k then b else s.key j := by
  have hj := j.isLt
  simp only [State.key, State.setKeyBit, Vector.get_eq_getElem, Vector.getElem_set]
  by_cases h : j = k
  · simp [h]
  · have : k.val ≠ j.val := fun e => h (Fin.ext e.symm)
    simp [h, this]

@[simp] theorem State.key_resetWith (font : Font) (k : Fin 16) : (State.resetWith font).key k = false := by
  simp [State.key, State.resetWith, Vector.get_eq_getElem]

theorem State.mem_pressedKeys (k : Fin 16) : k ∈ s.pressedKeys ↔ s.key k = true := by
  simp [State.pressedKeys]

/-- With no key pressed there is nothing to draw (R206). -/
theorem State.drawKey_none : s.drawKey = none ↔ ∀ k, s.key k = false := by
  have hmem := s.mem_pressedKeys
  unfold State.drawKey
  split
  · rename_i h
    simp only [true_iff]
    intro k
    have := hmem k
    rw [h] at this
    simpa using this
  · rename_i k h
    have := (hmem k).mp (by simp [h])
    simp only [reduceCtorEq, false_iff, not_forall]
    exact ⟨k, by simp [this]⟩
  · rename_i k l rest h
    have := (hmem k).mp (by simp [h])
    simp only [reduceCtorEq, false_iff, not_forall]
    exact ⟨k, by simp [this]⟩

/-- A drawn key is pressed, and the draw changes at most the model's count of draws (R206). -/
theorem State.drawKey_some {s : State} {k : Fin 16} {t : State} (h : s.drawKey = some (k, t)) :
    s.key k = true ∧ t = { s with draws := t.draws } := by
  have hmem := s.mem_pressedKeys
  unfold State.drawKey at h
  split at h
  · simp at h
  · rename_i j hj
    obtain ⟨rfl, rfl⟩ := by simpa using h
    exact ⟨(hmem _).mp (by simp [hj]), rfl⟩
  · rename_i j l rest hj
    obtain ⟨rfl, rfl⟩ := Prod.mk.inj (Option.some.inj h)
    exact ⟨(hmem _).mp (by rw [hj]; exact List.getElem_mem _), rfl⟩

/-! ### Memory -/

/-- A read gives the last byte written (R57, R59). -/
@[simp] theorem State.memRead_memWrite (a : Nat) (b : Byte) (x : Nat) :
    (s.memWrite a b).memRead x = if x = a then b else s.memRead x := by
  simp [State.memRead]

theorem outsideMemory_iff (a : Nat) : outsideMemory a = true ↔ 4096 ≤ a := by
  simp [outsideMemory]

theorem outsideMemory_eq_false (a : Nat) : outsideMemory a = false ↔ a < 4096 := by
  simp [outsideMemory]

/-- Storing a byte sequence: its bytes read back in place, every other address as before. -/
theorem State.memRead_writeBytes (bs : List Byte) (s : State) (a x : Nat) :
    (s.writeBytes a bs).memRead x =
      if h : a ≤ x ∧ x - a < bs.length then bs[x - a]'h.2 else s.memRead x := by
  induction bs generalizing s a with
  | nil => simp [State.writeBytes]
  | cons b rest ih =>
    rw [State.writeBytes, ih]
    by_cases hx : x = a
    · subst hx
      simp
    · by_cases h1 : a + 1 ≤ x ∧ x - (a + 1) < rest.length
      · have h2 : a ≤ x ∧ x - a < (b :: rest).length := by simp; omega
        rw [dif_pos h1, dif_pos h2]
        have : x - a = x - (a + 1) + 1 := by omega
        simp [this]
      · have h2 : ¬(a ≤ x ∧ x - a < (b :: rest).length) := by simp; omega
        rw [dif_neg h1, dif_neg h2]
        simp [hx]

/-- Storing bytes changes memory only. -/
theorem State.writeBytes_frame (bs : List Byte) (s : State) (a : Nat) :
    s.writeBytes a bs = { s with mem := (s.writeBytes a bs).mem } := by
  induction bs generalizing s a with
  | nil => rfl
  | cons b rest ih =>
    rw [State.writeBytes, ih]
    rfl

/-- Storing bytes keeps the font. -/
@[simp] theorem State.writeBytes_font (bs : List Byte) (a : Nat) : (s.writeBytes a bs).font = s.font := by
  rw [State.writeBytes_frame]

/-- Storing bytes inside the address space keeps the canonical form. -/
theorem State.wf_writeBytes (bs : List Byte) {s : State} (hs : s.mem.wf s.font) {a : Nat}
    (h : a + bs.length ≤ 4096) : (s.writeBytes a bs).mem.wf (s.writeBytes a bs).font := by
  induction bs generalizing s a with
  | nil => exact hs
  | cons b rest ih =>
    rw [State.writeBytes]
    rw [List.length_cons] at h
    exact ih (Memory.wf_write hs b (by omega)) (by omega)

/-! ### Register blocks (R184, R185) -/

theorem mem_regBlock (x r : Reg) : r ∈ regBlock x ↔ r ≤ x := by
  simp [regBlock]

/-- A block store: address I + r of a listed register holds that register, every other address is as before. -/
theorem State.memRead_storeRegs (l : List Reg) (s : State) (a : Nat) :
    (∀ r ∈ l, a = s.effAddr r.val → (s.storeRegs l).memRead a = s.getV r) ∧
      ((∀ r ∈ l, a ≠ s.effAddr r.val) → (s.storeRegs l).memRead a = s.memRead a) := by
  induction l generalizing s with
  | nil => simp [State.storeRegs]
  | cons q rest ih =>
    obtain ⟨hin, hout⟩ := ih (s.memWrite (s.effAddr q.val) (s.getV q))
    simp only [State.effAddr_memWrite, State.getV_memWrite, State.memRead_memWrite] at hin hout
    rw [State.storeRegs]
    constructor
    · intro r hr ha
      by_cases hrest : ∃ r' ∈ rest, a = s.effAddr r'.val
      · obtain ⟨r', hr', ha'⟩ := hrest
        have : r' = r := by
          apply Fin.ext
          rw [State.effAddr_eq] at ha ha'
          omega
        subst this
        exact hin r' hr' ha'
      · have hq : r = q := by
          rcases List.mem_cons.mp hr with h | h
          · exact h
          · exact absurd ⟨r, h, ha⟩ hrest
        subst hq
        rw [hout fun r' hr' e => hrest ⟨r', hr', e⟩, if_pos ha]
    · intro hne
      rw [hout fun r' hr' => hne r' (by simp [hr']), if_neg (hne q (by simp))]

/-- A block store changes memory only. -/
theorem State.storeRegs_frame (l : List Reg) (s : State) :
    s.storeRegs l = { s with mem := (s.storeRegs l).mem } := by
  induction l generalizing s with
  | nil => rfl
  | cons q rest ih =>
    rw [State.storeRegs, ih]
    rfl

/-- A block store keeps the font. -/
@[simp] theorem State.storeRegs_font (l : List Reg) : (s.storeRegs l).font = s.font := by
  rw [State.storeRegs_frame]

/-- A block store whose addresses lie inside memory keeps the canonical form. -/
theorem State.wf_storeRegs (l : List Reg) {s : State} (hs : s.mem.wf s.font)
    (h : ∀ r ∈ l, s.effAddr r.val < 4096) : (s.storeRegs l).mem.wf (s.storeRegs l).font := by
  induction l generalizing s with
  | nil => exact hs
  | cons q rest ih =>
    rw [State.storeRegs]
    exact ih (Memory.wf_write hs _ (h q (by simp))) fun r hr => h r (by simp [hr])

/-- A block load: each listed register holds the byte at I + its number, every other register is as before. -/
theorem State.getV_loadRegs (l : List Reg) (s : State) (q : Reg) :
    (s.loadRegs l).getV q = if q ∈ l then s.memRead (s.effAddr q.val) else s.getV q := by
  induction l generalizing s with
  | nil => simp [State.loadRegs]
  | cons r rest ih =>
    rw [State.loadRegs, ih]
    by_cases hq : q ∈ rest
    · simp [hq]
    · by_cases hr : q = r <;> simp [hq, hr]

/-- A block load changes V only. -/
theorem State.loadRegs_frame (l : List Reg) (s : State) :
    s.loadRegs l = { s with v := (s.loadRegs l).v } := by
  induction l generalizing s with
  | nil => rfl
  | cons q rest ih =>
    rw [State.loadRegs, ih]
    rfl

/-- A block load keeps the font. -/
@[simp] theorem State.loadRegs_font (l : List Reg) : (s.loadRegs l).font = s.font := by
  rw [State.loadRegs_frame]

/-! ### Key indices (R202) -/

theorem keyIndex_none (b : Byte) : keyIndex b = none ↔ 16 ≤ b.toNat := by
  unfold keyIndex
  split <;> simp <;> omega

theorem keyIndex_some (b : Byte) (k : Fin 16) : keyIndex b = some k ↔ b.toNat = k.val := by
  unfold keyIndex
  split
  · simp [Fin.ext_iff]
  · simp; omega

/-! ### Call stack (R27, R28) -/

theorem State.push_none (w : Word) : s.push w = none ↔ s.sp = 16 := by
  have h := s.sp.isLt
  unfold State.push
  split
  · rename_i hlt
    simp only [reduceCtorEq, false_iff]
    intro e
    rw [e] at hlt
    simp at hlt
  · rename_i hge
    simp only [true_iff]
    apply Fin.ext
    simp [Config.stackDepth] at hge ⊢
    omega

/-- A push that succeeds writes slot SP and increments SP, and nothing else (R132). -/
theorem State.push_some {s t : State} {w : Word} (h : s.push w = some t) :
    t = { s with stack := t.stack, sp := t.sp } ∧ t.sp.val = s.sp.val + 1 ∧
      ∀ k : Fin 16, t.stack.get k = if k.val = s.sp.val then w else s.stack.get k := by
  unfold State.push at h
  split at h
  · rename_i hlt
    obtain rfl := Option.some.inj h
    refine ⟨rfl, rfl, fun k => ?_⟩
    simp only [Vector.get_eq_getElem, Vector.getElem_set]
    by_cases hk : s.sp.val = k.val
    · simp [hk]
    · simp [hk, Ne.symm hk]
  · simp at h

theorem State.pop_none : s.pop = none ↔ s.sp = 0 := by
  unfold State.pop
  split
  · rename_i h
    simp only [reduceCtorEq, false_iff]
    intro e
    rw [e] at h
    simp at h
  · rename_i h
    simp only [true_iff]
    apply Fin.ext
    simp at h ⊢
    omega

/-- A pop that succeeds reads slot SP - 1 and decrements SP, and nothing else (R131). -/
theorem State.pop_some {s t : State} {w : Word} (h : s.pop = some (w, t)) :
    t = { s with sp := t.sp } ∧ s.sp.val = t.sp.val + 1 ∧
      ∀ k : Fin 16, k.val = t.sp.val → w = s.stack.get k := by
  unfold State.pop at h
  split at h
  · rename_i hlt
    have h := Option.some.inj h
    obtain ⟨rfl, rfl⟩ := Prod.mk.inj h
    refine ⟨rfl, by simp; omega, fun k hk => ?_⟩
    have : k = ⟨s.sp.val - 1, by omega⟩ := Fin.ext (by simpa using hk)
    rw [this]
  · simp at h

/-! ### Fetch (R91) -/

theorem State.fetchWord_none : s.fetchWord = none ↔ 4096 ≤ s.pc.toNat + 1 := by
  unfold State.fetchWord
  split <;> simp_all [outsideMemory]

theorem State.fetchWord_some (h : s.pc.toNat + 1 < 4096) :
    s.fetchWord = some (wordOf (s.memRead s.pc.toNat) (s.memRead (s.pc.toNat + 1))) := by
  unfold State.fetchWord
  rw [if_neg]
  simp [outsideMemory]
  omega

end Sys2Proof.Machine
end

