-- ==== Sys2Proof/Laws/Display.lean ====
section
/-! SUPPORT. What the sprite-draw engine does (R110, R112): which pixels a row and a sprite flip, when VF is set, the diagnostic,
and that nothing else changes. -/

namespace Sys2Proof.Machine

/-- Bit positions b .. b + count - 1 of a sprite row that are set and fall on column px (R110). -/
def RowHits (cx : Nat) (row : Byte) (b count : Nat) (px : Fin 64) : Prop :=
  ∃ k, b ≤ k ∧ k < b + count ∧ row.getLsbD (7 - k) = true ∧ spriteCol cx k = px

/-- Sprite rows r .. r + count - 1 inside memory that have a set bit falling on the pixel (R110, R112). -/
def SpriteHits (s : State) (cx cy r count : Nat) (px : Fin 64) (py : Fin 32) : Prop :=
  ∃ k, r ≤ k ∧ k < r + count ∧ s.index.toNat + k < 4096 ∧ spriteRow cy k = py ∧
    RowHits cx (s.memRead (s.index.toNat + k)) 0 8 px

theorem spriteCol_inj {cx a b : Nat} (h : spriteCol cx a = spriteCol cx b) (hab : a ≤ b) (hb : b < a + 64) : a = b := by
  have := congrArg Fin.val h
  simp only [spriteCol, Config.dispW] at this
  omega

theorem spriteRow_inj {cy a b : Nat} (h : spriteRow cy a = spriteRow cy b) (hab : a ≤ b) (hb : b < a + 32) : a = b := by
  have := congrArg Fin.val h
  simp only [spriteRow, Config.dispH] at this
  omega

theorem rowHits_succ (cx : Nat) (row : Byte) (b count : Nat) (px : Fin 64) :
    RowHits cx row b (count + 1) px ↔
      (row.getLsbD (7 - b) = true ∧ spriteCol cx b = px) ∨ RowHits cx row (b + 1) count px := by
  constructor
  · rintro ⟨k, h1, h2, h3, h4⟩
    by_cases hk : k = b
    · subst hk; exact .inl ⟨h3, h4⟩
    · exact .inr ⟨k, by omega, by omega, h3, h4⟩
  · rintro (⟨h3, h4⟩ | ⟨k, h1, h2, h3, h4⟩)
    · exact ⟨b, by omega, by omega, h3, h4⟩
    · exact ⟨k, by omega, by omega, h3, h4⟩

theorem not_rowHits_later {cx : Nat} {row : Byte} {b count : Nat} (h : count < 64) {px : Fin 64}
    (hb : spriteCol cx b = px) : ¬RowHits cx row (b + 1) count px := by
  rintro ⟨k, h1, h2, -, h4⟩
  have := spriteCol_inj (hb.trans h4.symm) (by omega) (by omega)
  omega

/-- A row's bits flip exactly the pixels they hit (R112). -/
theorem State.pixel_drawBits (cx : Nat) (py : Fin 32) (row : Byte) (count : Nat) (s : State) (b : Nat)
    (h : count ≤ 64) (qx : Fin 64) (qy : Fin 32) :
    (qy = py ∧ RowHits cx row b count qx → (s.drawBits cx py row b count).pixel qx qy = !s.pixel qx qy) ∧
      (¬(qy = py ∧ RowHits cx row b count qx) → (s.drawBits cx py row b count).pixel qx qy = s.pixel qx qy) := by
  induction count generalizing s b with
  | zero =>
    refine ⟨?_, fun _ => rfl⟩
    rintro ⟨-, k, h1, h2, -⟩
    omega
  | succ count ih =>
    rw [State.drawBits]
    obtain ⟨hin, hout⟩ := ih (if row.getLsbD (7 - b) then s.flipPixel (spriteCol cx b) py else s) (b + 1) (by omega)
    rw [rowHits_succ]
    by_cases hy : qy = py
    · subst hy
      by_cases hbit : row.getLsbD (7 - b) = true
      · rw [if_pos hbit] at hin hout ⊢
        by_cases hcol : spriteCol cx b = qx
        · have hno := not_rowHits_later (row := row) (count := count) (by omega) hcol
          refine ⟨fun _ => ?_, fun hn => absurd ⟨rfl, .inl ⟨hbit, hcol⟩⟩ hn⟩
          rw [hout fun hh => hno hh.2]
          simp [hcol]
        · have hcol' : ¬(qx = spriteCol cx b ∧ qy = qy) := fun hh => hcol hh.1.symm
          refine ⟨fun hh => ?_, fun hn => ?_⟩
          · rw [hin ⟨rfl, hh.2.resolve_left fun e => hcol e.2⟩, State.pixel_flipPixel, if_neg hcol']
          · rw [hout fun hh => hn ⟨rfl, .inr hh.2⟩, State.pixel_flipPixel, if_neg hcol']
      · rw [if_neg hbit] at hin hout ⊢
        exact ⟨fun hh => hin ⟨rfl, hh.2.resolve_left fun e => hbit e.1⟩, fun hn => hout fun hh => hn ⟨rfl, .inr hh.2⟩⟩
    · refine ⟨fun hh => absurd hh.1 hy, fun _ => ?_⟩
      rw [hout fun hh => hy hh.1]
      split
      · rw [State.pixel_flipPixel, if_neg fun hh => hy hh.2]
      · rfl

/-- A row's bits set VF exactly when one hits a pixel that is on; no other register changes (R112). -/
theorem State.getV_drawBits (cx : Nat) (py : Fin 32) (row : Byte) (count : Nat) (s : State) (b : Nat)
    (h : count ≤ 64) (q : Reg) :
    (q = regF ∧ (∃ px, RowHits cx row b count px ∧ s.pixel px py = true) →
        (s.drawBits cx py row b count).getV q = 1) ∧
      (¬(q = regF ∧ ∃ px, RowHits cx row b count px ∧ s.pixel px py = true) →
        (s.drawBits cx py row b count).getV q = s.getV q) := by
  induction count generalizing s b with
  | zero =>
    refine ⟨?_, fun _ => rfl⟩
    rintro ⟨-, px, ⟨k, h1, h2, -⟩, -⟩
    omega
  | succ count ih =>
    rw [State.drawBits]
    obtain ⟨hin, hout⟩ := ih (if row.getLsbD (7 - b) then s.flipPixel (spriteCol cx b) py else s) (b + 1) (by omega)
    by_cases hbit : row.getLsbD (7 - b) = true
    · rw [if_pos hbit] at hin hout ⊢
      have hpix : ∀ px, RowHits cx row (b + 1) count px →
          (s.flipPixel (spriteCol cx b) py).pixel px py = s.pixel px py := fun px hpx => by
        have : ¬(px = spriteCol cx b ∧ py = py) := fun e => not_rowHits_later (by omega) e.1.symm hpx
        rw [State.pixel_flipPixel, if_neg this]
      constructor
      · rintro ⟨rfl, px, hhit, hon⟩
        rcases (rowHits_succ ..).mp hhit with ⟨-, rfl⟩ | hlater
        · by_cases hl : ∃ px, RowHits cx row (b + 1) count px ∧ (s.flipPixel (spriteCol cx b) py).pixel px py = true
          · exact hin ⟨rfl, hl⟩
          · rw [hout fun hh => hl hh.2]
            simp [hon]
        · exact hin ⟨rfl, px, hlater, by rw [hpix px hlater]; exact hon⟩
      · intro hn
        rw [hout, State.getV_flipPixel, if_neg]
        · rintro ⟨rfl, hon⟩
          exact hn ⟨rfl, _, (rowHits_succ ..).mpr (.inl ⟨hbit, rfl⟩), hon⟩
        · rintro ⟨rfl, px, hlater, hon⟩
          rw [hpix px hlater] at hon
          exact hn ⟨rfl, px, (rowHits_succ ..).mpr (.inr hlater), hon⟩
    · rw [if_neg hbit] at hin hout ⊢
      have hiff : ∀ px, RowHits cx row b (count + 1) px ↔ RowHits cx row (b + 1) count px := fun px => by
        rw [rowHits_succ]
        exact ⟨fun hh => hh.resolve_left fun e => hbit e.1, .inr⟩
      simp only [hiff]
      exact ⟨hin, hout⟩

/-- A row's bits change V and the display only. -/
theorem State.drawBits_frame (cx : Nat) (py : Fin 32) (row : Byte) (count : Nat) (s : State) (b : Nat) :
    s.drawBits cx py row b count =
      { s with v := (s.drawBits cx py row b count).v, disp := (s.drawBits cx py row b count).disp } := by
  induction count generalizing s b with
  | zero => rfl
  | succ count ih =>
    rw [State.drawBits, ih]
    split
    · rw [State.flipPixel_frame]
    · rfl

theorem State.drawBits_index (cx : Nat) (py : Fin 32) (row : Byte) (count : Nat) (s : State) (b : Nat) :
    (s.drawBits cx py row b count).index = s.index := by
  rw [State.drawBits_frame]

theorem State.drawBits_memRead (cx : Nat) (py : Fin 32) (row : Byte) (count : Nat) (s : State) (b a : Nat) :
    (s.drawBits cx py row b count).memRead a = s.memRead a := by
  rw [State.drawBits_frame]
  rfl

theorem spriteHits_succ {s : State} {cx cy r : Nat} (h : s.index.toNat + r < 4096) (count : Nat) (px : Fin 64)
    (py : Fin 32) :
    SpriteHits s cx cy r (count + 1) px py ↔
      (spriteRow cy r = py ∧ RowHits cx (s.memRead (s.index.toNat + r)) 0 8 px) ∨
        SpriteHits s cx cy (r + 1) count px py := by
  constructor
  · rintro ⟨k, h1, h2, h3, h4, h5⟩
    by_cases hk : k = r
    · subst hk; exact .inl ⟨h4, h5⟩
    · exact .inr ⟨k, by omega, by omega, h3, h4, h5⟩
  · rintro (⟨h4, h5⟩ | ⟨k, h1, h2, h3, h4, h5⟩)
    · exact ⟨r, by omega, by omega, h, h4, h5⟩
    · exact ⟨k, by omega, by omega, h3, h4, h5⟩

theorem not_spriteHits_past {s : State} {cx cy r count : Nat} (h : 4096 ≤ s.index.toNat + r) (px : Fin 64)
    (py : Fin 32) : ¬SpriteHits s cx cy r count px py := by
  rintro ⟨k, h1, -, h3, -⟩
  omega

theorem not_spriteHits_later {s : State} {cx cy r count : Nat} (h : count < 32) {px : Fin 64} {py : Fin 32}
    (hr : spriteRow cy r = py) : ¬SpriteHits s cx cy (r + 1) count px py := by
  rintro ⟨k, h1, h2, -, h4, -⟩
  have := spriteRow_inj (hr.trans h4.symm) (by omega) (by omega)
  omega

/-- The hits of later rows are the same after a row is drawn: drawing changes neither I nor memory. -/
theorem spriteHits_drawBits (s : State) (cx' : Nat) (py' : Fin 32) (row : Byte) (b n cx cy r count : Nat)
    (px : Fin 64) (py : Fin 32) :
    SpriteHits (s.drawBits cx' py' row b n) cx cy r count px py ↔ SpriteHits s cx cy r count px py := by
  simp only [SpriteHits, State.drawBits_index, State.drawBits_memRead]

/-- The rows of a sprite flip exactly the pixels they hit, when no two rows share a display row (R112). -/
theorem State.pixel_drawRows (cx cy count : Nat) (s : State) (r : Nat) (h : count ≤ 32) (qx : Fin 64) (qy : Fin 32) :
    (SpriteHits s cx cy r count qx qy → (s.drawRows cx cy r count).pixel qx qy = !s.pixel qx qy) ∧
      (¬SpriteHits s cx cy r count qx qy → (s.drawRows cx cy r count).pixel qx qy = s.pixel qx qy) := by
  induction count generalizing s r with
  | zero =>
    refine ⟨?_, fun _ => rfl⟩
    rintro ⟨k, h1, h2, -⟩
    omega
  | succ count ih =>
    rw [State.drawRows]
    by_cases hm : s.index.toNat + r < 4096
    · rw [if_neg (by simp [outsideMemory]; omega)]
      obtain ⟨hin, hout⟩ := ih (s.drawBits cx (spriteRow cy r) (s.memRead (s.index.toNat + r)) 0 8) (r + 1) (by omega)
      obtain ⟨bin, bout⟩ := State.pixel_drawBits cx (spriteRow cy r) (s.memRead (s.index.toNat + r)) 8 s 0 (by omega) qx qy
      rw [spriteHits_drawBits] at hin hout
      rw [spriteHits_succ hm]
      by_cases hrow : spriteRow cy r = qy ∧ RowHits cx (s.memRead (s.index.toNat + r)) 0 8 qx
      · have hno : ¬SpriteHits s cx cy (r + 1) count qx qy := not_spriteHits_later (by omega) hrow.1
        refine ⟨fun _ => ?_, fun hn => absurd (.inl hrow) hn⟩
        rw [hout hno, bin ⟨hrow.1.symm, hrow.2⟩]
      · have hb := bout fun hh => hrow ⟨hh.1.symm, hh.2⟩
        exact ⟨fun hh => by rw [hin (hh.resolve_left hrow), hb], fun hn => by rw [hout fun hh => hn (.inr hh), hb]⟩
    · rw [if_pos (by simp [outsideMemory]; omega)]
      exact ⟨fun hh => absurd hh (not_spriteHits_past (by omega) _ _), fun _ => rfl⟩

/-- The rows of a sprite set VF exactly when one hits a pixel that is on; no other register changes (R112). -/
theorem State.getV_drawRows (cx cy count : Nat) (s : State) (r : Nat) (h : count ≤ 32) (q : Reg) :
    (q = regF ∧ (∃ px py, SpriteHits s cx cy r count px py ∧ s.pixel px py = true) →
        (s.drawRows cx cy r count).getV q = 1) ∧
      (¬(q = regF ∧ ∃ px py, SpriteHits s cx cy r count px py ∧ s.pixel px py = true) →
        (s.drawRows cx cy r count).getV q = s.getV q) := by
  induction count generalizing s r with
  | zero =>
    refine ⟨?_, fun _ => rfl⟩
    rintro ⟨-, px, py, ⟨k, h1, h2, -⟩, -⟩
    omega
  | succ count ih =>
    rw [State.drawRows]
    by_cases hm : s.index.toNat + r < 4096
    · rw [if_neg (by simp [outsideMemory]; omega)]
      obtain ⟨hin, hout⟩ := ih (s.drawBits cx (spriteRow cy r) (s.memRead (s.index.toNat + r)) 0 8) (r + 1) (by omega)
      obtain ⟨bin, bout⟩ := State.getV_drawBits cx (spriteRow cy r) (s.memRead (s.index.toNat + r)) 8 s 0 (by omega) q
      simp only [spriteHits_drawBits] at hin hout
      have hpix : ∀ px py, SpriteHits s cx cy (r + 1) count px py →
          (s.drawBits cx (spriteRow cy r) (s.memRead (s.index.toNat + r)) 0 8).pixel px py = s.pixel px py :=
        fun px py hh => (State.pixel_drawBits cx (spriteRow cy r) (s.memRead (s.index.toNat + r)) 8 s 0 (by omega)
          px py).2 fun e => not_spriteHits_later (by omega) e.1.symm hh
      constructor
      · rintro ⟨rfl, px, py, hhit, hon⟩
        by_cases hl : ∃ px py, SpriteHits s cx cy (r + 1) count px py ∧
            (s.drawBits cx (spriteRow cy r) (s.memRead (s.index.toNat + r)) 0 8).pixel px py = true
        · exact hin ⟨rfl, hl⟩
        · rw [hout fun hh => hl hh.2]
          rcases (spriteHits_succ hm ..).mp hhit with ⟨hrow, hbits⟩ | hlater
          · subst hrow
            exact bin ⟨rfl, px, hbits, hon⟩
          · exact absurd ⟨px, py, hlater, by rw [hpix px py hlater]; exact hon⟩ hl
      · intro hn
        rw [hout, bout]
        · rintro ⟨rfl, px, hbits, hon⟩
          exact hn ⟨rfl, px, _, (spriteHits_succ hm ..).mpr (.inl ⟨rfl, hbits⟩), hon⟩
        · rintro ⟨rfl, px, py, hlater, hon⟩
          rw [hpix px py hlater] at hon
          exact hn ⟨rfl, px, py, (spriteHits_succ hm ..).mpr (.inr hlater), hon⟩
    · rw [if_pos (by simp [outsideMemory]; omega)]
      refine ⟨?_, fun _ => rfl⟩
      rintro ⟨-, px, py, hhit, -⟩
      exact absurd hhit (not_spriteHits_past (by omega) px py)

/-- No register but VF changes while a row is drawn, whatever the number of bits. -/
theorem State.getV_drawBits_ne (cx : Nat) (py : Fin 32) (row : Byte) (count : Nat) (s : State) (b : Nat) {q : Reg}
    (hq : q ≠ regF) : (s.drawBits cx py row b count).getV q = s.getV q := by
  induction count generalizing s b with
  | zero => rfl
  | succ count ih =>
    rw [State.drawBits, ih]
    split
    · simp [hq]
    · rfl

/-- No register but VF changes while a sprite is drawn, whatever the number of rows (R112). -/
theorem State.getV_drawRows_ne (cx cy count : Nat) (s : State) (r : Nat) {q : Reg} (hq : q ≠ regF) :
    (s.drawRows cx cy r count).getV q = s.getV q := by
  induction count generalizing s r with
  | zero => rfl
  | succ count ih =>
    rw [State.drawRows]
    split
    · rfl
    · rw [ih, State.getV_drawBits_ne _ _ _ _ _ _ hq]

/-- Drawing rows changes V, the display and the result only. -/
theorem State.drawRows_frame (cx cy count : Nat) (s : State) (r : Nat) :
    s.drawRows cx cy r count =
      { s with
        v := (s.drawRows cx cy r count).v
        disp := (s.drawRows cx cy r count).disp
        result := (s.drawRows cx cy r count).result } := by
  induction count generalizing s r with
  | zero => rfl
  | succ count ih =>
    rw [State.drawRows]
    split
    · rfl
    · rw [ih, State.drawBits_frame]

/-- Drawing rows keeps the font. -/
@[simp] theorem State.drawRows_font (cx cy count : Nat) (s : State) (r : Nat) : (s.drawRows cx cy r count).font = s.font := by
  rw [State.drawRows_frame]

/-- The diagnostic names the first row past memory; with every row inside there is none (R112). -/
theorem State.drawRows_result (cx cy count : Nat) (s : State) (r : Nat) :
    (s.drawRows cx cy r count).result =
      if 0 < count ∧ 4096 < s.index.toNat + r + count then
        .ok (some (.outOfBounds (max (s.index.toNat + r) 4096)))
      else s.result := by
  induction count generalizing s r with
  | zero => simp [State.drawRows]
  | succ count ih =>
    rw [State.drawRows]
    by_cases hm : s.index.toNat + r < 4096
    · rw [if_neg (by simp [outsideMemory]; omega), ih, State.drawBits_index]
      have hres : (s.drawBits cx (spriteRow cy r) (s.memRead (s.index.toNat + r)) 0 8).result = s.result := by
        rw [State.drawBits_frame]
      rw [hres]
      have e : s.index.toNat + (r + 1) + count = s.index.toNat + r + (count + 1) := by omega
      by_cases hp : 4096 < s.index.toNat + r + (count + 1)
      · rw [if_pos (by omega), if_pos (by omega)]
        congr 3
        omega
      · rw [if_neg (by omega), if_neg (by omega)]
    · rw [if_pos (by simp [outsideMemory]; omega), if_pos (by omega)]
      simp only [State.diagnose]
      congr 3
      omega

end Sys2Proof.Machine
end

