-- ==== Sys2Proof/Laws/PerInstr.lean ====
section
/-! SUPPORT. The per-instruction family RowPattern: the word an instruction encodes to matches the row of the opcode table
that bears its mnemonic (R74, R75), for every operand. -/

namespace Sys2Proof.Laws.RowPattern

/-- The instruction's word has the fixed bits of its row. -/
def Statement (i : Instr) : Prop :=
  ∃ r ∈ opcodeTable, r.mnemonic = i.mnemonic ∧ r.Matches (encodeWord i)

theorem cls : Statement (.cls) := by
  refine ⟨⟨"CLS", 0xFFFF, 0x00E0⟩, by simp [opcodeTable], rfl, ?_⟩
  decide

theorem ret : Statement (.ret) := by
  refine ⟨⟨"RET", 0xFFFF, 0x00EE⟩, by simp [opcodeTable], rfl, ?_⟩
  decide

theorem jp (nnn : BitVec 12) : Statement (.jp nnn) := by
  refine ⟨⟨"JP", 0xF000, 0x1000⟩, by simp [opcodeTable], rfl, ?_⟩
  change _ &&& 0xF000#16 = 0x1000#16
  apply BitVec.eq_of_toNat_eq
  rw [and_F000_toNat, encodeWord, formatNNN_toNat]
  simp only [BitVec.toNat_ofNat]
  omega

theorem call (nnn : BitVec 12) : Statement (.call nnn) := by
  refine ⟨⟨"CALL", 0xF000, 0x2000⟩, by simp [opcodeTable], rfl, ?_⟩
  change _ &&& 0xF000#16 = 0x2000#16
  apply BitVec.eq_of_toNat_eq
  rw [and_F000_toNat, encodeWord, formatNNN_toNat]
  simp only [BitVec.toNat_ofNat]
  omega

theorem seImm (x : Reg) (nn : Byte) : Statement (.seImm x nn) := by
  refine ⟨⟨"SE_IMM", 0xF000, 0x3000⟩, by simp [opcodeTable], rfl, ?_⟩
  change _ &&& 0xF000#16 = 0x3000#16
  apply BitVec.eq_of_toNat_eq
  rw [and_F000_toNat, encodeWord, formatXNN_toNat]
  simp only [BitVec.toNat_ofNat]
  omega

theorem sneImm (x : Reg) (nn : Byte) : Statement (.sneImm x nn) := by
  refine ⟨⟨"SNE_IMM", 0xF000, 0x4000⟩, by simp [opcodeTable], rfl, ?_⟩
  change _ &&& 0xF000#16 = 0x4000#16
  apply BitVec.eq_of_toNat_eq
  rw [and_F000_toNat, encodeWord, formatXNN_toNat]
  simp only [BitVec.toNat_ofNat]
  omega

theorem seReg (x : Reg) (y : Reg) : Statement (.seReg x y) := by
  refine ⟨⟨"SE_REG", 0xF00F, 0x5000⟩, by simp [opcodeTable], rfl, ?_⟩
  change _ &&& 0xF00F#16 = 0x5000#16
  apply BitVec.eq_of_toNat_eq
  rw [and_F00F_toNat, encodeWord, formatXYN_toNat]
  simp only [BitVec.toNat_ofNat]
  omega

theorem ldImm (x : Reg) (nn : Byte) : Statement (.ldImm x nn) := by
  refine ⟨⟨"LD_IMM", 0xF000, 0x6000⟩, by simp [opcodeTable], rfl, ?_⟩
  change _ &&& 0xF000#16 = 0x6000#16
  apply BitVec.eq_of_toNat_eq
  rw [and_F000_toNat, encodeWord, formatXNN_toNat]
  simp only [BitVec.toNat_ofNat]
  omega

theorem addImm (x : Reg) (nn : Byte) : Statement (.addImm x nn) := by
  refine ⟨⟨"ADD_IMM", 0xF000, 0x7000⟩, by simp [opcodeTable], rfl, ?_⟩
  change _ &&& 0xF000#16 = 0x7000#16
  apply BitVec.eq_of_toNat_eq
  rw [and_F000_toNat, encodeWord, formatXNN_toNat]
  simp only [BitVec.toNat_ofNat]
  omega

theorem ldReg (x : Reg) (y : Reg) : Statement (.ldReg x y) := by
  refine ⟨⟨"LD_REG", 0xF00F, 0x8000⟩, by simp [opcodeTable], rfl, ?_⟩
  change _ &&& 0xF00F#16 = 0x8000#16
  apply BitVec.eq_of_toNat_eq
  rw [and_F00F_toNat, encodeWord, formatXYN_toNat]
  simp only [BitVec.toNat_ofNat]
  omega

theorem orReg (x : Reg) (y : Reg) : Statement (.orReg x y) := by
  refine ⟨⟨"OR", 0xF00F, 0x8001⟩, by simp [opcodeTable], rfl, ?_⟩
  change _ &&& 0xF00F#16 = 0x8001#16
  apply BitVec.eq_of_toNat_eq
  rw [and_F00F_toNat, encodeWord, formatXYN_toNat]
  simp only [BitVec.toNat_ofNat]
  omega

theorem andReg (x : Reg) (y : Reg) : Statement (.andReg x y) := by
  refine ⟨⟨"AND", 0xF00F, 0x8002⟩, by simp [opcodeTable], rfl, ?_⟩
  change _ &&& 0xF00F#16 = 0x8002#16
  apply BitVec.eq_of_toNat_eq
  rw [and_F00F_toNat, encodeWord, formatXYN_toNat]
  simp only [BitVec.toNat_ofNat]
  omega

theorem xorReg (x : Reg) (y : Reg) : Statement (.xorReg x y) := by
  refine ⟨⟨"XOR", 0xF00F, 0x8003⟩, by simp [opcodeTable], rfl, ?_⟩
  change _ &&& 0xF00F#16 = 0x8003#16
  apply BitVec.eq_of_toNat_eq
  rw [and_F00F_toNat, encodeWord, formatXYN_toNat]
  simp only [BitVec.toNat_ofNat]
  omega

theorem addReg (x : Reg) (y : Reg) : Statement (.addReg x y) := by
  refine ⟨⟨"ADD_REG", 0xF00F, 0x8004⟩, by simp [opcodeTable], rfl, ?_⟩
  change _ &&& 0xF00F#16 = 0x8004#16
  apply BitVec.eq_of_toNat_eq
  rw [and_F00F_toNat, encodeWord, formatXYN_toNat]
  simp only [BitVec.toNat_ofNat]
  omega

theorem sub (x : Reg) (y : Reg) : Statement (.sub x y) := by
  refine ⟨⟨"SUB", 0xF00F, 0x8005⟩, by simp [opcodeTable], rfl, ?_⟩
  change _ &&& 0xF00F#16 = 0x8005#16
  apply BitVec.eq_of_toNat_eq
  rw [and_F00F_toNat, encodeWord, formatXYN_toNat]
  simp only [BitVec.toNat_ofNat]
  omega

theorem shr (x : Reg) (y : Reg) : Statement (.shr x y) := by
  refine ⟨⟨"SHR", 0xF00F, 0x8006⟩, by simp [opcodeTable], rfl, ?_⟩
  change _ &&& 0xF00F#16 = 0x8006#16
  apply BitVec.eq_of_toNat_eq
  rw [and_F00F_toNat, encodeWord, formatXYN_toNat]
  simp only [BitVec.toNat_ofNat]
  omega

theorem subn (x : Reg) (y : Reg) : Statement (.subn x y) := by
  refine ⟨⟨"SUBN", 0xF00F, 0x8007⟩, by simp [opcodeTable], rfl, ?_⟩
  change _ &&& 0xF00F#16 = 0x8007#16
  apply BitVec.eq_of_toNat_eq
  rw [and_F00F_toNat, encodeWord, formatXYN_toNat]
  simp only [BitVec.toNat_ofNat]
  omega

theorem shl (x : Reg) (y : Reg) : Statement (.shl x y) := by
  refine ⟨⟨"SHL", 0xF00F, 0x800E⟩, by simp [opcodeTable], rfl, ?_⟩
  change _ &&& 0xF00F#16 = 0x800E#16
  apply BitVec.eq_of_toNat_eq
  rw [and_F00F_toNat, encodeWord, formatXYN_toNat]
  simp only [BitVec.toNat_ofNat]
  omega

theorem sneReg (x : Reg) (y : Reg) : Statement (.sneReg x y) := by
  refine ⟨⟨"SNE_REG", 0xF00F, 0x9000⟩, by simp [opcodeTable], rfl, ?_⟩
  change _ &&& 0xF00F#16 = 0x9000#16
  apply BitVec.eq_of_toNat_eq
  rw [and_F00F_toNat, encodeWord, formatXYN_toNat]
  simp only [BitVec.toNat_ofNat]
  omega

theorem ldI (nnn : BitVec 12) : Statement (.ldI nnn) := by
  refine ⟨⟨"LD_I", 0xF000, 0xA000⟩, by simp [opcodeTable], rfl, ?_⟩
  change _ &&& 0xF000#16 = 0xA000#16
  apply BitVec.eq_of_toNat_eq
  rw [and_F000_toNat, encodeWord, formatNNN_toNat]
  simp only [BitVec.toNat_ofNat]
  omega

theorem jpV0 (nnn : BitVec 12) : Statement (.jpV0 nnn) := by
  refine ⟨⟨"JP_V0", 0xF000, 0xB000⟩, by simp [opcodeTable], rfl, ?_⟩
  change _ &&& 0xF000#16 = 0xB000#16
  apply BitVec.eq_of_toNat_eq
  rw [and_F000_toNat, encodeWord, formatNNN_toNat]
  simp only [BitVec.toNat_ofNat]
  omega

theorem rnd (x : Reg) (nn : Byte) : Statement (.rnd x nn) := by
  refine ⟨⟨"RND", 0xF000, 0xC000⟩, by simp [opcodeTable], rfl, ?_⟩
  change _ &&& 0xF000#16 = 0xC000#16
  apply BitVec.eq_of_toNat_eq
  rw [and_F000_toNat, encodeWord, formatXNN_toNat]
  simp only [BitVec.toNat_ofNat]
  omega

theorem drw (x : Reg) (y : Reg) (n : Nat) : Statement (.drw x y n) := by
  refine ⟨⟨"DRW", 0xF000, 0xD000⟩, by simp [opcodeTable], rfl, ?_⟩
  change _ &&& 0xF000#16 = 0xD000#16
  apply BitVec.eq_of_toNat_eq
  rw [and_F000_toNat, encodeWord, formatXYN_toNat]
  simp only [BitVec.toNat_ofNat]
  omega

theorem skp (x : Reg) : Statement (.skp x) := by
  refine ⟨⟨"SKP", 0xF0FF, 0xE09E⟩, by simp [opcodeTable], rfl, ?_⟩
  change _ &&& 0xF0FF#16 = 0xE09E#16
  apply BitVec.eq_of_toNat_eq
  rw [and_F0FF_toNat, encodeWord, formatXNN_toNat]
  simp only [BitVec.toNat_ofNat]
  omega

theorem sknp (x : Reg) : Statement (.sknp x) := by
  refine ⟨⟨"SKNP", 0xF0FF, 0xE0A1⟩, by simp [opcodeTable], rfl, ?_⟩
  change _ &&& 0xF0FF#16 = 0xE0A1#16
  apply BitVec.eq_of_toNat_eq
  rw [and_F0FF_toNat, encodeWord, formatXNN_toNat]
  simp only [BitVec.toNat_ofNat]
  omega

theorem ldVxDt (x : Reg) : Statement (.ldVxDt x) := by
  refine ⟨⟨"LD_VX_DT", 0xF0FF, 0xF007⟩, by simp [opcodeTable], rfl, ?_⟩
  change _ &&& 0xF0FF#16 = 0xF007#16
  apply BitVec.eq_of_toNat_eq
  rw [and_F0FF_toNat, encodeWord, formatXNN_toNat]
  simp only [BitVec.toNat_ofNat]
  omega

theorem ldVxK (x : Reg) : Statement (.ldVxK x) := by
  refine ⟨⟨"LD_VX_K", 0xF0FF, 0xF00A⟩, by simp [opcodeTable], rfl, ?_⟩
  change _ &&& 0xF0FF#16 = 0xF00A#16
  apply BitVec.eq_of_toNat_eq
  rw [and_F0FF_toNat, encodeWord, formatXNN_toNat]
  simp only [BitVec.toNat_ofNat]
  omega

theorem ldDtVx (x : Reg) : Statement (.ldDtVx x) := by
  refine ⟨⟨"LD_DT_VX", 0xF0FF, 0xF015⟩, by simp [opcodeTable], rfl, ?_⟩
  change _ &&& 0xF0FF#16 = 0xF015#16
  apply BitVec.eq_of_toNat_eq
  rw [and_F0FF_toNat, encodeWord, formatXNN_toNat]
  simp only [BitVec.toNat_ofNat]
  omega

theorem ldStVx (x : Reg) : Statement (.ldStVx x) := by
  refine ⟨⟨"LD_ST_VX", 0xF0FF, 0xF018⟩, by simp [opcodeTable], rfl, ?_⟩
  change _ &&& 0xF0FF#16 = 0xF018#16
  apply BitVec.eq_of_toNat_eq
  rw [and_F0FF_toNat, encodeWord, formatXNN_toNat]
  simp only [BitVec.toNat_ofNat]
  omega

theorem addIVx (x : Reg) : Statement (.addIVx x) := by
  refine ⟨⟨"ADD_I_VX", 0xF0FF, 0xF01E⟩, by simp [opcodeTable], rfl, ?_⟩
  change _ &&& 0xF0FF#16 = 0xF01E#16
  apply BitVec.eq_of_toNat_eq
  rw [and_F0FF_toNat, encodeWord, formatXNN_toNat]
  simp only [BitVec.toNat_ofNat]
  omega

theorem ldFVx (x : Reg) : Statement (.ldFVx x) := by
  refine ⟨⟨"LD_F_VX", 0xF0FF, 0xF029⟩, by simp [opcodeTable], rfl, ?_⟩
  change _ &&& 0xF0FF#16 = 0xF029#16
  apply BitVec.eq_of_toNat_eq
  rw [and_F0FF_toNat, encodeWord, formatXNN_toNat]
  simp only [BitVec.toNat_ofNat]
  omega

theorem ldBVx (x : Reg) : Statement (.ldBVx x) := by
  refine ⟨⟨"LD_B_VX", 0xF0FF, 0xF033⟩, by simp [opcodeTable], rfl, ?_⟩
  change _ &&& 0xF0FF#16 = 0xF033#16
  apply BitVec.eq_of_toNat_eq
  rw [and_F0FF_toNat, encodeWord, formatXNN_toNat]
  simp only [BitVec.toNat_ofNat]
  omega

theorem ldMemVx (x : Reg) : Statement (.ldMemVx x) := by
  refine ⟨⟨"LD_MEM_VX", 0xF0FF, 0xF055⟩, by simp [opcodeTable], rfl, ?_⟩
  change _ &&& 0xF0FF#16 = 0xF055#16
  apply BitVec.eq_of_toNat_eq
  rw [and_F0FF_toNat, encodeWord, formatXNN_toNat]
  simp only [BitVec.toNat_ofNat]
  omega

theorem ldVxMem (x : Reg) : Statement (.ldVxMem x) := by
  refine ⟨⟨"LD_VX_MEM", 0xF0FF, 0xF065⟩, by simp [opcodeTable], rfl, ?_⟩
  change _ &&& 0xF0FF#16 = 0xF065#16
  apply BitVec.eq_of_toNat_eq
  rw [and_F0FF_toNat, encodeWord, formatXNN_toNat]
  simp only [BitVec.toNat_ofNat]
  omega

end Sys2Proof.Laws.RowPattern
end

