-- ==== Sys2Proof/Laws/Safety.lean ====
section
/-! SUPPORT. The bound of R26 as a numeral, and that a step either fails its fetch or fetches a word. -/

namespace Sys2Proof.Machine

@[simp] theorem pcMax_eq : pcMax = 4350 := rfl

/-- The two cases of a fetch (R91). -/
theorem State.fetch_cases (s : State) :
    (∃ w, s.fetchWord = some w ∧ s.pc.toNat + 1 < 4096) ∨ (s.fetchWord = none ∧ 4096 ≤ s.pc.toNat + 1) := by
  cases h : s.fetchWord with
  | none => exact .inr ⟨rfl, s.fetchWord_none.mp h⟩
  | some w =>
    refine .inl ⟨w, rfl, ?_⟩
    by_contra hc
    have := s.fetchWord_none.mpr (by omega)
    simp [h] at this

/-- A step whose fetch fails (R91). -/
theorem step_fetch_none {s : State} (h : s.fetchWord = none) :
    step s = .next (s.raise .outOfBounds none (some s.pc.toNat)) := by
  simp [step, h, fetchError]

/-- A step on an unknown opcode (R95). -/
theorem step_unknown {s : State} {w : Word} (h : s.fetchWord = some w) (hd : decodeWord w = none) :
    step s = .next (s.advance.diagnose (.unknownOpcode w)) := by
  simp [step, h, hd, unknownOpcode]

/-- A step on a decoded instruction (R92, R93). -/
theorem step_decoded {s : State} {w : Word} {i : Instr} (h : s.fetchWord = some w) (hd : decodeWord w = some i) :
    step s = exec i s.advance := by
  simp [step, h, hd]

end Sys2Proof.Machine
end

