-- ==== Sys2Proof/Tests/Slice0.lean ====
section
/-! SUPPORT. Tests, one step each on a small state. Words are written out from the patterns of R75; expected values are the vectors of
spec/95_test_vectors.md (named in each comment) or hand calculation from the rule cited. The witnesses at the end meet the
hypotheses of the obligations. -/

namespace Sys2Proof.Tests

open Sys2Proof.Machine

/-- A step of the word placed at PC, read through f. -/
def probe {α : Type} (w : Nat) (s : State) (f : State → α) : Option α :=
  match step (s.withFetchWord 16 w) with
  | .next t => some (f t)
  | .fault _ => none
  | .refused _ => none

/-- The state after reset. -/
abbrev s0 : State := State.reset

/-- Two registers, and registers with VF. -/
def regs2 (r : Reg) (a : Byte) (q : Reg) (b : Byte) : State := (s0.setV r a).setV q b

/-! ### Well-formedness (R71, R73): the one check, and an ill-formed term it refuses -/

theorem test_wellFormed_rows_15 : (Instr.drw 0 0 15).WellFormed := by decide

theorem test_wellFormed_refuses_rows_16 : ¬(Instr.drw 0 0 16).WellFormed := by decide

/-! ### Decoding: every row's word, its mask, its instruction and back (R72, R75) -/

theorem test_decode_cls : 0b0000000011100000#16 &&& 0xFFFF = 0x00E0 ∧ decodeWord 0b0000000011100000 = some (.cls) ∧
    encodeWord (.cls) = 0b0000000011100000 := by decide

theorem test_decode_ret : 0b0000000011101110#16 &&& 0xFFFF = 0x00EE ∧ decodeWord 0b0000000011101110 = some (.ret) ∧
    encodeWord (.ret) = 0b0000000011101110 := by decide

theorem test_decode_jp : 0b0001001000000100#16 &&& 0xF000 = 0x1000 ∧ decodeWord 0b0001001000000100 = some (.jp 0x204) ∧
    encodeWord (.jp 0x204) = 0b0001001000000100 := by decide

theorem test_decode_call : 0b0010001000010000#16 &&& 0xF000 = 0x2000 ∧ decodeWord 0b0010001000010000 = some (.call 0x210) ∧
    encodeWord (.call 0x210) = 0b0010001000010000 := by decide

theorem test_decode_seImm : 0b0011000101000010#16 &&& 0xF000 = 0x3000 ∧ decodeWord 0b0011000101000010 = some (.seImm 1 0x42) ∧
    encodeWord (.seImm 1 0x42) = 0b0011000101000010 := by decide

theorem test_decode_sneImm : 0b0100000101000010#16 &&& 0xF000 = 0x4000 ∧ decodeWord 0b0100000101000010 = some (.sneImm 1 0x42) ∧
    encodeWord (.sneImm 1 0x42) = 0b0100000101000010 := by decide

theorem test_decode_seReg : 0b0101000100100000#16 &&& 0xF00F = 0x5000 ∧ decodeWord 0b0101000100100000 = some (.seReg 1 2) ∧
    encodeWord (.seReg 1 2) = 0b0101000100100000 := by decide

theorem test_decode_ldImm : 0b0110101001111011#16 &&& 0xF000 = 0x6000 ∧ decodeWord 0b0110101001111011 = some (.ldImm 10 0x7B) ∧
    encodeWord (.ldImm 10 0x7B) = 0b0110101001111011 := by decide

theorem test_decode_addImm : 0b0111000111111111#16 &&& 0xF000 = 0x7000 ∧ decodeWord 0b0111000111111111 = some (.addImm 1 0xFF) ∧
    encodeWord (.addImm 1 0xFF) = 0b0111000111111111 := by decide

theorem test_decode_ldReg : 0b1000000100100000#16 &&& 0xF00F = 0x8000 ∧ decodeWord 0b1000000100100000 = some (.ldReg 1 2) ∧
    encodeWord (.ldReg 1 2) = 0b1000000100100000 := by decide

theorem test_decode_orReg : 0b1000000100100001#16 &&& 0xF00F = 0x8001 ∧ decodeWord 0b1000000100100001 = some (.orReg 1 2) ∧
    encodeWord (.orReg 1 2) = 0b1000000100100001 := by decide

theorem test_decode_andReg : 0b1000000100100010#16 &&& 0xF00F = 0x8002 ∧ decodeWord 0b1000000100100010 = some (.andReg 1 2) ∧
    encodeWord (.andReg 1 2) = 0b1000000100100010 := by decide

theorem test_decode_xorReg : 0b1000000100100011#16 &&& 0xF00F = 0x8003 ∧ decodeWord 0b1000000100100011 = some (.xorReg 1 2) ∧
    encodeWord (.xorReg 1 2) = 0b1000000100100011 := by decide

theorem test_decode_addReg : 0b1000111100100100#16 &&& 0xF00F = 0x8004 ∧ decodeWord 0b1000111100100100 = some (.addReg 15 2) ∧
    encodeWord (.addReg 15 2) = 0b1000111100100100 := by decide

theorem test_decode_sub : 0b1000000111110101#16 &&& 0xF00F = 0x8005 ∧ decodeWord 0b1000000111110101 = some (.sub 1 15) ∧
    encodeWord (.sub 1 15) = 0b1000000111110101 := by decide

theorem test_decode_shr : 0b1000000100010110#16 &&& 0xF00F = 0x8006 ∧ decodeWord 0b1000000100010110 = some (.shr 1 1) ∧
    encodeWord (.shr 1 1) = 0b1000000100010110 := by decide

theorem test_decode_subn : 0b1000000100100111#16 &&& 0xF00F = 0x8007 ∧ decodeWord 0b1000000100100111 = some (.subn 1 2) ∧
    encodeWord (.subn 1 2) = 0b1000000100100111 := by decide

theorem test_decode_shl : 0b1000000100001110#16 &&& 0xF00F = 0x800E ∧ decodeWord 0b1000000100001110 = some (.shl 1 0) ∧
    encodeWord (.shl 1 0) = 0b1000000100001110 := by decide

theorem test_decode_sneReg : 0b1001000100100000#16 &&& 0xF00F = 0x9000 ∧ decodeWord 0b1001000100100000 = some (.sneReg 1 2) ∧
    encodeWord (.sneReg 1 2) = 0b1001000100100000 := by decide

theorem test_decode_ldI : 0b1010000100100011#16 &&& 0xF000 = 0xA000 ∧ decodeWord 0b1010000100100011 = some (.ldI 0x123) ∧
    encodeWord (.ldI 0x123) = 0b1010000100100011 := by decide

theorem test_decode_jpV0 : 0b1011111111111111#16 &&& 0xF000 = 0xB000 ∧ decodeWord 0b1011111111111111 = some (.jpV0 0xFFF) ∧
    encodeWord (.jpV0 0xFFF) = 0b1011111111111111 := by decide

theorem test_decode_rnd : 0b1100111100001111#16 &&& 0xF000 = 0xC000 ∧ decodeWord 0b1100111100001111 = some (.rnd 15 0x0F) ∧
    encodeWord (.rnd 15 0x0F) = 0b1100111100001111 := by decide

theorem test_decode_drw : 0b1101000000010010#16 &&& 0xF000 = 0xD000 ∧ decodeWord 0b1101000000010010 = some (.drw 0 1 2) ∧
    encodeWord (.drw 0 1 2) = 0b1101000000010010 := by decide

theorem test_decode_skp : 0b1110000110011110#16 &&& 0xF0FF = 0xE09E ∧ decodeWord 0b1110000110011110 = some (.skp 1) ∧
    encodeWord (.skp 1) = 0b1110000110011110 := by decide

theorem test_decode_sknp : 0b1110000110100001#16 &&& 0xF0FF = 0xE0A1 ∧ decodeWord 0b1110000110100001 = some (.sknp 1) ∧
    encodeWord (.sknp 1) = 0b1110000110100001 := by decide

theorem test_decode_ldVxDt : 0b1111000100000111#16 &&& 0xF0FF = 0xF007 ∧ decodeWord 0b1111000100000111 = some (.ldVxDt 1) ∧
    encodeWord (.ldVxDt 1) = 0b1111000100000111 := by decide

theorem test_decode_ldVxK : 0b1111111100001010#16 &&& 0xF0FF = 0xF00A ∧ decodeWord 0b1111111100001010 = some (.ldVxK 15) ∧
    encodeWord (.ldVxK 15) = 0b1111111100001010 := by decide

theorem test_decode_ldDtVx : 0b1111000100010101#16 &&& 0xF0FF = 0xF015 ∧ decodeWord 0b1111000100010101 = some (.ldDtVx 1) ∧
    encodeWord (.ldDtVx 1) = 0b1111000100010101 := by decide

theorem test_decode_ldStVx : 0b1111000100011000#16 &&& 0xF0FF = 0xF018 ∧ decodeWord 0b1111000100011000 = some (.ldStVx 1) ∧
    encodeWord (.ldStVx 1) = 0b1111000100011000 := by decide

theorem test_decode_addIVx : 0b1111000100011110#16 &&& 0xF0FF = 0xF01E ∧ decodeWord 0b1111000100011110 = some (.addIVx 1) ∧
    encodeWord (.addIVx 1) = 0b1111000100011110 := by decide

theorem test_decode_ldFVx : 0b1111000100101001#16 &&& 0xF0FF = 0xF029 ∧ decodeWord 0b1111000100101001 = some (.ldFVx 1) ∧
    encodeWord (.ldFVx 1) = 0b1111000100101001 := by decide

theorem test_decode_ldBVx : 0b1111101000110011#16 &&& 0xF0FF = 0xF033 ∧ decodeWord 0b1111101000110011 = some (.ldBVx 10) ∧
    encodeWord (.ldBVx 10) = 0b1111101000110011 := by decide

theorem test_decode_ldMemVx : 0b1111111101010101#16 &&& 0xF0FF = 0xF055 ∧ decodeWord 0b1111111101010101 = some (.ldMemVx 15) ∧
    encodeWord (.ldMemVx 15) = 0b1111111101010101 := by decide

theorem test_decode_ldVxMem : 0b1111001001100101#16 &&& 0xF0FF = 0xF065 ∧ decodeWord 0b1111001001100101 = some (.ldVxMem 2) ∧
    encodeWord (.ldVxMem 2) = 0b1111001001100101 := by decide

/-- Unknown words of each family (R76; V4 to V10 of the spec's vectors). -/
theorem test_unknown_words : [0x0000#16, 0x0123, 0x00E1, 0x5121, 0x8128, 0x812F, 0x9121, 0xE19F, 0xF100].all
    (fun w => decodeWord w == none) = true := by decide

/-- No two rows of the table share a word (R74): on the bits both masks fix, the patterns differ. -/
theorem test_rows_disjoint :
    opcodeTable.Pairwise (fun r q => r.pattern &&& q.mask ≠ q.pattern &&& r.mask) := by decide

theorem test_table_has_34_rows : opcodeTable.length = 34 := by decide

/-- Bytes decode big-endian, the rest is kept, one byte is too few (R54, R70). -/
theorem test_decode_bytes : decode [0x6A, 0x7B, 0x00] = .instr (.ldImm 10 0x7B) [0x00] ∧
    decode [0x6A] = .rejected .truncated ∧ decode [0x01, 0x23] = .rejected (.unknownOpcode 0x0123) := by decide

theorem test_decodeTableWord : decodeTableWord 16 0x8124 = some (.addReg 1 2) := by decide

/-- Assembler texts of P1 to P3 of the spec's programs and of R78. -/
theorem test_asm : asmText (.ldImm 10 0x7B) = "LD VA, 0x7B" ∧ asmText (.ldI 0x300) = "LD I, 0x300" ∧
    asmText (.drw 0 1 2) = "DRW V0, V1, 2" ∧ asmText (.shr 1 0) = "SHR V1" ∧
    wordText 0x0123 = "DB 0x01, DB 0x23" := by decide

/-! ### Fetch and unknown opcodes -/

/-- V1: PC = 0xFFF fails the fetch and PC stays. -/
theorem test_fetch_past_end :
    (match step { s0 with pc := 0xFFF } with | .next t => some (t.pc, t.result) | _ => none) =
      some (0xFFF, .err .outOfBounds ⟨none, some 0xFFF⟩) := by decide

/-- V2: a word at 0xFFE runs and leaves PC = 0x1000. -/
theorem test_fetch_last_word :
    probe 0x00E0 { s0 with pc := 0xFFE } (fun t => (t.pc, t.changed, t.result)) = some (0x1000, true, .ok none) := by decide

/-- V11: an odd PC is fetched like an even one. -/
theorem test_fetch_odd :
    probe 0x602A { s0 with pc := 0x201 } (fun t => (t.getV 0, t.pc)) = some (0x2A, 0x203) := by decide

/-- V4: 0123 is a no-op with a diagnostic. -/
theorem test_unknown_is_noop :
    probe 0x0123 s0 (fun t => (t.pc, t.result, t.changed)) = some (0x202, .ok (some (.unknownOpcode 0x0123)), false) := by decide

/-- V7: 5121 does not skip. -/
theorem test_unknown_no_skip :
    probe 0x5121 (regs2 1 7 2 7) (fun t => t.pc) = some 0x202 := by decide

/-! ### Display -/

/-- D1: CLS clears pixel (5,3) and sets changed. -/
theorem test_cls :
    probe 0x00E0 (s0.setPixel 5 3 true) (fun t => (t.pixel 5 3, t.changed, t.pc)) = some (false, true, 0x202) := by decide

/-- W4: a row at (63,31) wraps to columns 0..6 of row 31. -/
theorem test_drw_wraps :
    probe 0xD011 { (regs2 0 0x3F 1 0x1F).memWrite 0x300 0xFF with index := 0x300 } (fun t =>
      ([t.pixel 63 31, t.pixel 0 31, t.pixel 6 31, t.pixel 7 31, t.pixel 0 0, t.changed], t.getV 15)) =
      some ([true, true, true, false, false, true], 0) := by decide

/-- D4 and D7 in one: the row inside memory collides, the row past it is a diagnostic. -/
theorem test_drw_stops_at_end :
    probe 0xD003 { (s0.memWrite 0xFFF 0x80).setPixel 0 0 true with index := 0xFFF } (fun t =>
      (t.pixel 0 0, t.getV 15, t.result)) = some (false, 1, .ok (some (.outOfBounds 0x1000))) := by decide

/-! ### Control flow -/

/-- F2: an odd target is allowed. -/
theorem test_jp :
    probe 0x1201 s0 (fun t => t.pc) = some 0x201 := by decide

/-- F6: RET pops 0x252 and leaves the slot. -/
theorem test_ret :
    probe 0x00EE { s0 with sp := 1, stack := s0.stack.set 0 0x252 } (fun t => (t.pc, t.sp, t.stack.get 0)) =
      some (0x252, 0, 0x252) := by decide

/-- F7: RET with SP = 0. -/
theorem test_ret_underflow :
    probe 0x00EE s0 (fun t => (t.pc, t.sp, t.result)) = some (0x202, 0, .err .stackUnderflow ⟨some 0x00EE, none⟩) := by decide

/-- F4: the return address is the call's own address + 2. -/
theorem test_call :
    probe 0x2300 { s0 with pc := 0x250 } (fun t => (t.pc, t.sp, t.stack.get 0)) = some (0x300, 1, 0x252) := by decide

/-- F5: CALL with SP = 16. -/
theorem test_call_overflow :
    probe 0x2ABC { s0 with sp := 16 } (fun t => (t.pc, t.sp, t.result)) =
      some (0x202, 16, .err .stackOverflow ⟨some 0x2ABC, none⟩) := by decide

/-- F8 and F9. -/
theorem test_seImm :
    probe 0x3142 (s0.setV 1 0x42) (fun t => t.pc) = some 0x204 ∧
    probe 0x3142 (s0.setV 1 0x41) (fun t => t.pc) = some 0x202 := by decide

/-- F10 and F11. -/
theorem test_sneImm :
    probe 0x4142 (s0.setV 1 0x42) (fun t => t.pc) = some 0x202 ∧ probe 0x4142 s0 (fun t => t.pc) = some 0x204 := by decide

/-- F12, and registers that differ. -/
theorem test_seReg :
    probe 0x5120 (regs2 1 7 2 7) (fun t => t.pc) = some 0x204 ∧
    probe 0x5120 (regs2 1 7 2 8) (fun t => t.pc) = some 0x202 := by decide

/-- F13 and F14. -/
theorem test_sneReg :
    probe 0x9120 (regs2 1 7 2 8) (fun t => t.pc) = some 0x204 ∧
    probe 0x9120 (regs2 1 7 2 7) (fun t => t.pc) = some 0x202 := by decide

/-- F17 and F18: the largest PC, and V5 not used. -/
theorem test_jpV0 :
    probe 0xBFFF (s0.setV 0 0xFF) (fun t => t.pc) = some 0x10FE ∧
    probe 0xB2F0 (s0.setV 5 0x10) (fun t => t.pc) = some 0x2F0 := by decide

/-! ### Registers, arithmetic and logic -/

/-- A1. -/
theorem test_ldImm :
    probe 0x6A05 s0 (fun t => (t.getV 10, t.getV 9, t.pc)) = some (0x05, 0, 0x202) := by decide

/-- A2 and A3: no flag. -/
theorem test_addImm :
    probe 0x71FF (regs2 1 0x01 15 0x55) (fun t => (t.getV 1, t.getV 15)) = some (0x00, 0x55) ∧
    probe 0x7F01 (s0.setV 15 0xFF) (fun t => t.getV 15) = some 0x00 := by decide

/-- A4. -/
theorem test_ldReg :
    probe 0x8120 (s0.setV 2 0x9C) (fun t => (t.getV 1, t.getV 2)) = some (0x9C, 0x9C) := by decide

/-- A5: VF is not reset. -/
theorem test_orReg :
    probe 0x8121 ((regs2 1 0xF0 2 0x0F).setV 15 7) (fun t => (t.getV 1, t.getV 15)) = some (0xFF, 0x07) := by decide

/-- A6. -/
theorem test_andReg :
    probe 0x8122 ((regs2 1 0xF0 2 0x3C).setV 15 7) (fun t => (t.getV 1, t.getV 15)) = some (0x30, 0x07) := by decide

/-- A7. -/
theorem test_xorReg :
    probe 0x8123 ((regs2 1 0xFF 2 0x0F).setV 15 7) (fun t => (t.getV 1, t.getV 15)) = some (0xF0, 0x07) := by decide

/-- A8 and A9. -/
theorem test_addReg :
    probe 0x8124 (regs2 1 0xFF 2 0x01) (fun t => (t.getV 1, t.getV 15)) = some (0x00, 1) ∧
    probe 0x8124 (regs2 1 0x80 2 0x7F) (fun t => (t.getV 1, t.getV 15)) = some (0xFF, 0) := by decide

/-- A10, A11 and A12. -/
theorem test_addReg_vf :
    probe 0x8F24 (regs2 15 0xF0 2 0x20) (fun t => t.getV 15) = some 0x10 ∧
    probe 0x81F4 (regs2 1 0x10 15 0xF5) (fun t => (t.getV 1, t.getV 15)) = some (0x05, 1) ∧
    probe 0x8FF4 (s0.setV 15 0x90) (fun t => t.getV 15) = some 0x20 := by decide

/-- A13 and A14. -/
theorem test_sub :
    probe 0x8125 (regs2 1 5 2 5) (fun t => (t.getV 1, t.getV 15)) = some (0x00, 1) ∧
    probe 0x8125 (regs2 1 3 2 5) (fun t => (t.getV 1, t.getV 15)) = some (0xFE, 0) := by decide

/-- A15, A16 and A17. -/
theorem test_sub_vf :
    probe 0x81F5 (regs2 1 0x10 15 5) (fun t => (t.getV 1, t.getV 15)) = some (0x0F, 1) ∧
    probe 0x8F25 (regs2 15 5 2 3) (fun t => t.getV 15) = some 0xFE ∧ probe 0x8FF5 (s0.setV 15 0x90) (fun t => t.getV 15) = some 0x00 := by decide

/-- A18 and A19. -/
theorem test_subn :
    probe 0x8127 (regs2 1 3 2 5) (fun t => (t.getV 1, t.getV 15)) = some (0x02, 1) ∧
    probe 0x8127 (regs2 1 5 2 3) (fun t => (t.getV 1, t.getV 15)) = some (0xFE, 0) := by decide

/-- A20 and A21. -/
theorem test_subn_vf :
    probe 0x81F7 (regs2 1 3 15 5) (fun t => (t.getV 1, t.getV 15)) = some (0xFE, 1) ∧ probe 0x8F27 (regs2 15 5 2 3) (fun t => t.getV 15) = some 0x03 := by decide

/-- A22 and A24, and W2's 8116. -/
theorem test_shr :
    probe 0x8106 (s0.setV 1 5) (fun t => (t.getV 1, t.getV 15)) = some (0x02, 1) ∧ probe 0x8116 (s0.setV 1 1) (fun t => (t.getV 1, t.getV 15)) = some (0x00, 1) ∧
    probe 0x8F06 (s0.setV 15 0xFF) (fun t => t.getV 15) = some 0x00 := by decide

/-- A25, A26, A27 and A28. -/
theorem test_shl :
    probe 0x810E (s0.setV 1 0x81) (fun t => (t.getV 1, t.getV 15)) = some (0x02, 1) ∧ probe 0x810E (s0.setV 1 0x7F) (fun t => (t.getV 1, t.getV 15)) = some (0xFE, 0) ∧
    probe 0x8F0E (s0.setV 15 0x80) (fun t => t.getV 15) = some 0x02 ∧ probe 0x8F0E (s0.setV 15 0x7F) (fun t => t.getV 15) = some 0x00 := by decide

/-- A30: nn = 0 gives 0 whatever is drawn, and the draw is counted. -/
theorem test_rnd :
    probe 0xC100 (s0.setV 1 0x55) (fun t => (t.getV 1, t.pc, t.draws)) = some (0x00, 0x202, 1) := by
  show some ((Config.randByte 0 &&& 0#8), (0x202 : Word), 1) = _
  rw [BitVec.and_zero]
  rfl

/-! ### Index and memory -/

/-- M1. -/
theorem test_ldI :
    probe 0xA123 s0 (fun t => t.index) = some 0x123 := by decide

/-- M2 and M3: mod 65536, no bound check. -/
theorem test_addIVx :
    probe 0xF11E { s0.setV 1 2 with index := 0xFFFF } (fun t => (t.index, t.getV 15)) = some (0x0001, 0) ∧
    probe 0xF11E { s0.setV 1 1 with index := 0x0FFF } (fun t => t.index) = some 0x1000 := by decide

/-- M4 and M5: not masked. -/
theorem test_ldFVx :
    probe 0xF129 (s0.setV 1 0x0A) (fun t => t.index) = some 0x32 ∧
    probe 0xF129 (s0.setV 1 0xFF) (fun t => t.index) = some 0x4FB := by decide

/-- M7: the last I that succeeds. -/
theorem test_ldBVx :
    probe 0xF133 { s0.setV 1 0xFF with index := 0xFFD } (fun t =>
      (t.memRead 0xFFD, t.memRead 0xFFE, t.memRead 0xFFF, t.index)) = some (2, 5, 5, 0xFFD) := by decide

/-- M8: nothing written. -/
theorem test_ldBVx_past_end :
    probe 0xF133 { s0.setV 1 0xFF with index := 0xFFE } (fun t => (t.memRead 0xFFE, t.pc, t.result)) =
      some (0, 0x202, .err .outOfBounds ⟨some 0xF133, some 0x1000⟩) := by decide

/-- M9 and M15 (the font is writable). -/
theorem test_ldMemVx :
    probe 0xF155 { regs2 0 1 1 2 with index := 0x300 } (fun t => (t.memRead 0x300, t.memRead 0x301, t.index)) =
      some (1, 2, 0x302) ∧ probe 0xF055 s0 (fun t => (t.memRead 0, t.index)) = some (0, 1) := by decide

/-- M12: nothing written, I unchanged. -/
theorem test_ldMemVx_past_end :
    probe 0xFF55 { s0.setV 0 9 with index := 0xFF1 } (fun t => (t.memRead 0xFF1, t.index, t.result)) =
      some (0, 0xFF1, .err .outOfBounds ⟨some 0xFF55, some 0x1000⟩) := by decide

/-- M13: VF receives the sixteenth byte. -/
theorem test_ldVxMem :
    probe 0xFF65 { s0.memWrite 0x30F 0xAB with index := 0x300 } (fun t => (t.getV 14, t.getV 15, t.index)) =
      some (0, 0xAB, 0x310) := by decide

/-- M14, with the default font of D14 (general knowledge, log entry 6). -/
theorem test_ldVxMem_font :
    probe 0xF265 s0 (fun t => (t.getV 0, t.getV 1, t.getV 2, t.index)) = some (0xF0, 0x90, 0x90, 3) := by decide

/-- R8: another font in place of the default, read through `Fx29` and `Fx65`. -/
theorem test_font_is_a_parameter :
    probe 0xF065 ((State.resetWith (Vector.replicate 80 0x3C)).setI 50) (fun t => t.getV 0) = some 0x3C ∧
    probe 0xF065 (s0.setI 50) (fun t => t.getV 0) = some 0xF0 := by decide

/-! ### Keys and timers -/

/-- K1 and K2. -/
theorem test_skp :
    probe 0xE19E ((s0.setV 1 15).setKeyBit 15 true) (fun t => t.pc) = some 0x204 ∧
    probe 0xE19E (s0.setV 1 15) (fun t => t.pc) = some 0x202 := by decide

/-- K5. -/
theorem test_skp_bad_index :
    probe 0xE19E (s0.setV 1 0x10) (fun t => (t.pc, t.result)) =
      some (0x202, .err .outOfBounds ⟨some 0xE19E, some 0x10⟩) := by decide

/-- K3 and K4. -/
theorem test_sknp :
    probe 0xE1A1 (s0.setV 1 15) (fun t => t.pc) = some 0x204 ∧
    probe 0xE1A1 ((s0.setV 1 15).setKeyBit 15 true) (fun t => t.pc) = some 0x202 := by decide

/-- K6 and K7. -/
theorem test_ldVxK :
    probe 0xF00A s0 (fun t => (t.getV 0, t.pc)) = some (0, 0x200) ∧
    probe 0xF00A (s0.setKeyBit 3 true) (fun t => (t.getV 0, t.pc)) = some (3, 0x202) := by decide

/-- T2. -/
theorem test_ldVxDt :
    probe 0xF107 (s0.setDelay 0x2A) (fun t => (t.getV 1, t.delay)) = some (0x2A, 0x2A) := by decide

/-- T1. -/
theorem test_ldDtVx :
    probe 0xF115 (s0.setV 1 0x2A) (fun t => (t.delay, t.sound)) = some (0x2A, 0) := by decide

/-- T3: the sound is active at once. -/
theorem test_ldStVx :
    probe 0xF118 (s0.setV 1 1) (fun t => (t.sound, t.soundActive, t.delay)) = some (1, true, 0) := by decide

/-! ### Host operations -/

/-- T4 and T5: floored at 0. -/
theorem test_tick :
    (s0.setDelay 1).tick.delay = 0 ∧ (s0.setDelay 1).tick.sound = 0 ∧ (s0.setSound 1).tick.soundActive = false := by decide

/-- H1 and H2. -/
theorem test_setKey :
    (s0.setKey 3 true).1.key 3 = true ∧ (s0.setKey 3 true).2 = .ok ∧ (s0.setKey 16 true).2 = .invalidKey 16 ∧
    (s0.setKey (-1) true).1.pressedKeys = [] := by decide

/-- W5's image lands at 0x200, the bytes around it stay. -/
theorem test_loadRom :
    (s0.loadRom [0x00, 0xE0, 0x12, 0x00]).1.memRead 0x201 = 0xE0 ∧
    (s0.loadRom [0x00, 0xE0, 0x12, 0x00]).1.fetchWord = some 0x00E0 ∧
    (s0.loadRom [0x00, 0xE0, 0x12, 0x00]).1.memRead 0x1FF = 0 ∧ (s0.loadRom []).1 = s0 := by decide

/-- R256 and H3: refused before initialize; clearChanged. -/
theorem test_session :
    (match (Session.unset defaultFont).call .tick with | .refused r => some r | _ => none) = some .beforeInit ∧
    (s0.setChanged true).clearChanged.changed = false := by decide

/-- The codes of R220. -/
theorem test_codes :
    [(StepResult.ok none).code, (StepResult.err .outOfBounds ⟨none, none⟩).code,
      (StepResult.err .stackOverflow ⟨none, none⟩).code, (StepResult.err .stackUnderflow ⟨none, none⟩).code,
      (StepResult.ok (some (.unknownOpcode 0))).code, (KeyResult.invalidKey 16).code, LoadResult.loadError.code,
      (LoadResult.romTooLarge 3585).code] = [0, 1, 2, 3, 4, 5, 6, 7] := by decide

/-! ### Witnesses: a concrete case that meets the hypotheses of each obligation that has some, at the edges of each clause. The
hypotheses of the decoding clauses are met by the words of `test_decode_…`. -/

open Sys2Proof.Claims

/-- A state at PC with a word placed there. -/
def placed (pc : Word) (w : Nat) (s : State) : State := ({ s with pc := pc }).withFetchWord 16 w

/-- Rows of the widest count. -/
theorem witness_DecodeAfterEncode :
    (Instr.drw 0 1 15).WellFormed ∧ (Instr.ldMemVx 15).WellFormed := by decide

/-- A word that decodes. -/
theorem witness_EncodeAfterDecode :
    decodeWord 0x6A7B = some (.ldImm 10 0x7B) := by decide

/-- A word of each clause. -/
theorem witness_DecoderFollowsOpcodeTable :
    decodeWord 0x5120 = some (.seReg 1 2) ∧ decodeWord 0x5121 = none ∧ ∃ r ∈ opcodeTable, r.Matches 0x5120 := by
  refine ⟨by decide, by decide, ⟨"SE_REG", 0xF00F, 0x5000⟩, by decide, by decide⟩

/-- The last word a fetch can read, and an odd PC. -/
theorem witness_StepRunsDecodedInstruction :
    Fetches (placed 0xFFE 0x1201 s0) 0x1201 ∧ Fetches (placed 0x201 0x1201 s0) 0x1201 ∧
    decodeWord 0x1201 = some (.jp 0x201) ∧ Fetches (placed 0 0x812F s0) 0x812F ∧ decodeWord 0x812F = none := by
  unfold Fetches
  decide

/-- The two sides of the bound. -/
theorem witness_FetchChecksThenReads :
    4096 ≤ ({ s0 with pc := 0xFFF } : State).pc.toNat + 1 ∧ ({ s0 with pc := 0xFFE } : State).pc.toNat + 1 < 4096 := by decide

/-- An unknown word at PC. -/
theorem witness_UnknownOpcodeIsNoOp :
    Fetches (placed 0x200 0x0123 s0) 0x0123 ∧ decodeWord 0x0123 = none := by
  unfold Fetches
  decide

/-- A step with each hard error, and one with none. -/
theorem witness_HardErrorsAreExact :
    (∃ t, step { s0 with pc := 0xFFF } = .next t ∧ hardErrorOf { s0 with pc := 0xFFF } = some (.outOfBounds, ⟨none, some 0xFFF⟩)) ∧
    (∃ t, step (placed 0x200 0x00EE s0) = .next t ∧
      hardErrorOf (placed 0x200 0x00EE s0) = some (.stackUnderflow, ⟨some 0x00EE, none⟩)) ∧
    (∃ t, step (placed 0x200 0x2ABC { s0 with sp := 16 }) = .next t ∧
      hardErrorOf (placed 0x200 0x2ABC { s0 with sp := 16 }) = some (.stackOverflow, ⟨some 0x2ABC, none⟩)) ∧
    (∃ t, step (placed 0x200 0xF033 { s0 with index := 0xFFE }) = .next t ∧
      hardErrorOf (placed 0x200 0xF033 { s0 with index := 0xFFE }) = some (.outOfBounds, ⟨some 0xF033, some 0x1000⟩)) ∧
    (∃ t, step (placed 0x200 0xE19E (s0.setV 1 16)) = .next t ∧
      hardErrorOf (placed 0x200 0xE19E (s0.setV 1 16)) = some (.outOfBounds, ⟨some 0xE19E, some 16⟩)) ∧
    ∃ t, step (placed 0x200 0x1200 s0) = .next t ∧ hardErrorOf (placed 0x200 0x1200 s0) = none := by
  refine ⟨⟨_, rfl, ?_⟩, ⟨_, rfl, ?_⟩, ⟨_, rfl, ?_⟩, ⟨_, rfl, ?_⟩, ⟨_, rfl, ?_⟩, ⟨_, rfl, ?_⟩⟩ <;> decide

/-- A step with each diagnostic; the sprite starts past memory or ends one row past it. -/
theorem witness_DiagnosticsAreExact :
    (∃ t, step (placed 0x200 0x0123 s0) = .next t ∧
      diagnosticOf (placed 0x200 0x0123 s0) = some (.unknownOpcode 0x0123)) ∧
    (∃ t, step (placed 0x200 0xD001 { s0 with index := 0x1000 }) = .next t ∧
      diagnosticOf (placed 0x200 0xD001 { s0 with index := 0x1000 }) = some (.outOfBounds 0x1000)) ∧
    (∃ t, step (placed 0x200 0xD002 { s0 with index := 0xFFF }) = .next t ∧
      diagnosticOf (placed 0x200 0xD002 { s0 with index := 0xFFF }) = some (.outOfBounds 0x1000)) ∧
    ∃ t, step (placed 0x200 0xD000 { s0 with index := 0x1000 }) = .next t ∧
      diagnosticOf (placed 0x200 0xD000 { s0 with index := 0x1000 }) = none := by
  refine ⟨⟨_, rfl, ?_⟩, ⟨_, rfl, ?_⟩, ⟨_, rfl, ?_⟩, ⟨_, rfl, ?_⟩⟩ <;> decide

/-- A taken skip at the last word, a key wait, a return with SP = 1. -/
theorem witness_PcAfterStep :
    (Fetches (placed 0xFFE 0x3000 s0) 0x3000 ∧ ∃ t, step (placed 0xFFE 0x3000 s0) = .next t ∧ t.pc = 0x1002) ∧
    (Fetches (placed 0x200 0xF00A s0) 0xF00A ∧ ∃ t, step (placed 0x200 0xF00A s0) = .next t ∧ t.pc = 0x200) ∧
    (Fetches (placed 0x200 0x00EE { s0 with sp := 1 }) 0x00EE ∧
      ∃ t, step (placed 0x200 0x00EE { s0 with sp := 1 }) = .next t ∧ t.pc = 0) := by
  unfold Fetches
  refine ⟨⟨by decide, _, rfl, ?_⟩, ⟨by decide, _, rfl, ?_⟩, ⟨by decide, _, rfl, ?_⟩⟩ <;> decide

/-- An instruction that changes the piece of state of each clause. -/
theorem witness_OnlyWritersChangeState :
    (∃ t, exec .cls s0 = .next t ∧ t.changed ≠ s0.changed) ∧
    (∃ t, exec (.ldBVx 1) { s0.setV 1 123 with index := 0x300 } = .next t ∧ t.mem ≠ s0.mem) ∧
    (∃ t, exec (.call 0x300) s0 = .next t ∧ t.stack ≠ s0.stack ∧ t.sp ≠ s0.sp) ∧
    (∃ t, exec (.ldI 0x300) s0 = .next t ∧ t.index ≠ s0.index) ∧
    (∃ t, exec (.ldDtVx 1) (s0.setV 1 9) = .next t ∧ t.delay ≠ s0.delay) ∧
    ∃ t, exec (.ldStVx 1) (s0.setV 1 9) = .next t ∧ t.sound ≠ s0.sound := by
  refine ⟨⟨_, rfl, ?_⟩, ⟨_, rfl, ?_⟩, ⟨_, rfl, ?_⟩, ⟨_, rfl, ?_⟩, ⟨_, rfl, ?_⟩, ⟨_, rfl, ?_⟩⟩ <;> decide

/-- A block load and the first register past its block; a draw and V14. -/
theorem witness_OnlyNamedRegistersChange :
    (∃ t, exec (.ldVxMem 2) s0 = .next t ∧ ¬MayWrite (.ldVxMem 2) 3) ∧
    ∃ t, exec (.drw 0 1 1) s0 = .next t ∧ ¬MayWrite (.drw 0 1 1) 14 := by
  unfold MayWrite
  exact ⟨⟨_, rfl, by decide⟩, ⟨_, rfl, by decide⟩⟩

/-- A step that keeps a running timer, and one that sets it. -/
theorem witness_StepsDoNotTick :
    (∃ t, step (placed 0x200 0x00E0 (s0.setDelay 5)) = .next t ∧ t.delay = 5) ∧
    ∃ t, step (placed 0x200 0xF115 (s0.setV 1 7)) = .next t ∧ t.delay = 7 := by
  exact ⟨⟨_, rfl, by decide⟩, ⟨_, rfl, by decide⟩⟩

/-- An instruction that draws nothing. -/
theorem witness_FreeInputsReachTwoInstructions :
    (Instr.ldVxDt 1).mnemonic ∉ ["RND", "LD_VX_K"] ∧ ∃ t, exec (.ldVxDt 1) s0 = .next t := by
  exact ⟨by decide, _, rfl⟩

/-- The state after reset, and the largest PC. -/
theorem witness_StepKeepsInvariant :
    (s0.Inv ∧ ∃ t, step s0 = .next t) ∧ ({ s0 with pc := 0x10FE } : State).Inv ∧ ∃ t, step { s0 with pc := 0x10FE } = .next t := by
  exact ⟨⟨by decide, _, rfl⟩, by decide, _, rfl⟩

/-- A session that reaches a state. -/
theorem witness_HostCallsKeepInvariant :
    (s0.Inv ∧ ∃ t r, (Session.ready s0).call .step = .next (.ready t, r)) ∧
    ∃ s, (Session.unset defaultFont).calls [.initCore, .loadRom (some [0x60, 0x2A]), .step, .tick] = .next (.ready s) ∧ s.getV 0 = 0x2A := by
  exact ⟨⟨by decide, _, _, rfl⟩, _, rfl, by decide⟩

/-- The smallest such PC. -/
theorem witness_FetchErrorIsPermanent :
    4095 ≤ ({ s0 with pc := 0xFFF } : State).pc.toNat := by decide

/-- A jump to itself at 0x200. -/
theorem witness_ParkedStateStays :
    (placed 0x200 0x1200 s0).Parked := ⟨0x200, by decide, by decide⟩

/-- A covered pixel that is on and one that is off, a pixel not covered, and draws that cover nothing. -/
theorem witness_DrawSprite :
    (Instr.drw 0 1 1).WellFormed ∧
    Covers (((s0.memWrite 0x300 0x81).setI 0x300).setPixel 0 0 true) 0 1 1 0 0 ∧
    Covers (((s0.memWrite 0x300 0x81).setI 0x300).setPixel 0 0 true) 0 1 1 7 0 ∧
    (((s0.memWrite 0x300 0x81).setI 0x300).setPixel 0 0 true).pixel 0 0 = true ∧
    (((s0.memWrite 0x300 0x81).setI 0x300).setPixel 0 0 true).pixel 7 0 = false ∧
    (Instr.drw 0 1 0).WellFormed ∧ (∀ px py, ¬Covers s0 0 1 0 px py) ∧ (∀ px py, ¬Covers (s0.setI 0x1000) 0 1 1 px py) := by
  refine ⟨by decide, ⟨0, 0, by decide⟩, ⟨0, 7, by decide⟩, by decide, by decide, by decide, ?_, ?_⟩
  · rintro px py ⟨r, b, h, -⟩
    omega
  · rintro px py ⟨r, b, -, -, h, -⟩
    have e : (s0.setI 0x1000).index.toNat = 4096 := by decide
    omega

/-- A draw with no VF alias. -/
theorem witness_DrawTwiceRestores :
    (Instr.drw 0 14 15).WellFormed ∧ (0 : Reg) ≠ 15 ∧ (14 : Reg) ≠ 15 ∧ Covers ((s0.memWrite 0x300 0x80).setI 0x300) 0 14 1 0 0 := by
  exact ⟨by decide, by decide, by decide, 0, 0, by decide⟩

/-- The full stack, one entry, and the empty stack. -/
theorem witness_ReturnPops :
    ({ s0 with sp := 16 } : State).sp ≠ 0 ∧ ({ s0 with sp := 1 } : State).sp ≠ 0 ∧ s0.sp = 0 := by decide

/-- The last free slot, and the full stack. -/
theorem witness_CallPushes :
    ({ s0 with sp := 15 } : State).sp ≠ 16 ∧ ({ s0 with sp := 16 } : State).sp = 16 := by decide

/-- Words with the lowest and the highest non-zero low nibble. -/
theorem witness_SkipOnRegister :
    ((0x5121#16 &&& 0xF000 = 0x5000 ∨ 0x5121#16 &&& 0xF000 = 0x9000) ∧ 0x5121#16 &&& 0x000F ≠ 0) ∧
    (0x912F#16 &&& 0xF000 = 0x5000 ∨ 0x912F#16 &&& 0xF000 = 0x9000) ∧ 0x912F#16 &&& 0x000F ≠ 0 := by decide

/-- x below and at 15. -/
theorem witness_AddWithCarry :
    (14 : Reg) ≠ 15 ∧ (15 : Reg) = 15 ∧ (regs2 14 0xFF 1 1).getV 14 = 0xFF := by decide

/-- Each alias case by register numbers. -/
theorem witness_SubtractNoBorrow :
    ((14 : Reg) ≠ 15 ∧ (0 : Reg) ≠ 15) ∧ ((14 : Reg) ≠ 15 ∧ (15 : Reg) = 15) ∧ ((15 : Reg) = 15 ∧ (14 : Reg) ≠ 15) := by decide

/-- Each alias case by register numbers, one register twice among them. -/
theorem witness_SubtractReversed :
    ((0 : Reg) ≠ 15 ∧ (0 : Reg) ≠ 15) ∧ ((0 : Reg) ≠ 15 ∧ (15 : Reg) = 15) ∧ ((15 : Reg) = 15 ∧ (0 : Reg) ≠ 15) := by decide

/-- x below and at 15. -/
theorem witness_ShiftRightOne :
    (14 : Reg) ≠ 15 ∧ (15 : Reg) = 15 := by decide

/-- x below and at 15. -/
theorem witness_ShiftLeftOne :
    (0 : Reg) ≠ 15 ∧ (15 : Reg) = 15 := by decide

/-- The mask 0, and another register. -/
theorem witness_RandomMasked :
    (0x00 : Byte) = 0 ∧ (14 : Reg) ≠ 15 := by decide

/-- I = 4093, the last that succeeds, and I = 4094. -/
theorem witness_StoreDigits :
    (s0.setI 0xFFD).effAddr 2 < 4096 ∧ 4096 ≤ (s0.setI 0xFFE).effAddr 2 := by decide

/-- A block that ends at 4095, and one that ends at 4096. -/
theorem witness_StoreBlock :
    (s0.setI 0xFF0).effAddr (15 : Reg).val < 4096 ∧ 4096 ≤ (s0.setI 0xFF1).effAddr (15 : Reg).val ∧ (15 : Reg) ≤ 15 := by decide

/-- A block that ends at 4095 with a register past it, and one that ends at 4096. -/
theorem witness_LoadBlock :
    (s0.setI 0xFF1).effAddr (14 : Reg).val < 4096 ∧ (14 : Reg) < 15 ∧ 4096 ≤ (s0.setI 0xFF1).effAddr (15 : Reg).val := by decide

/-- A block of one that ends at 4095. -/
theorem witness_StoreThenLoadRestores :
    (s0.setI 0xFFF).effAddr (0 : Reg).val < 4096 := by decide

/-- V0 and V1 stored over the two bytes at PC. -/
theorem witness_StoredCodeIsFetched :
    (1 : Reg).val = (0 : Reg).val + 1 ∧ (1 : Reg) ≤ 1 ∧ (s0.setI 0x200).effAddr (1 : Reg).val < 4096 ∧
    s0.pc.toNat = (s0.setI 0x200).effAddr (0 : Reg).val := by decide

/-- A memory of two entries, reached in both orders. -/
theorem witness_CanonicalMemoryUnique :
    ((s0.memWrite 0x300 1).memWrite 0x200 2).mem.wf defaultFont ∧ ((s0.memWrite 0x200 2).memWrite 0x300 1).mem.wf defaultFont ∧
    ((s0.memWrite 0x300 1).memWrite 0x200 2).mem = ((s0.memWrite 0x200 2).memWrite 0x300 1).mem := by decide

/-- The last key index and the first value past it. -/
theorem witness_SkipOnKey :
    ((s0.setV 1 15).getV 1).toNat = (15 : Fin 16).val ∧ 16 ≤ ((s0.setV 1 16).getV 1).toNat := by decide

/-- No key pressed, one, and two. -/
theorem witness_WaitForKey :
    (∀ k, s0.key k = false) ∧ (∃ k, (s0.setKeyBit 15 true).key k = true) ∧
    ∃ k, ((s0.setKeyBit 15 true).setKeyBit 0 true).key k = true := by decide

/-- An `Fx0A` at PC with no key pressed. -/
theorem witness_KeyWaitHoldsUntilKey :
    (placed 0x200 0xFF0A s0).fetchWord = some (encodeWord (.ldVxK 15)) ∧ ∀ k, (placed 0x200 0xFF0A s0).key k = false := by decide

/-- The indices just outside. -/
theorem witness_SetKeyWritesOneKey :
    ((-1 : Int) < 0 ∨ 16 ≤ (-1 : Int)) ∧ ((16 : Int) < 0 ∨ 16 ≤ (16 : Int)) := by decide

/-- Lengths 3584 and 3585, and an address on each side of the image. -/
theorem witness_LoadRomCopiesImage :
    (List.replicate 3584 (1 : Byte)).length ≤ 3584 ∧ 3584 < (List.replicate 3585 (1 : Byte)).length ∧
    (0x1FF < 0x200 ∨ 0x200 + min [(1 : Byte)].length 3584 ≤ 0x1FF) ∧ (0x201 < 0x200 ∨ 0x200 + min [(1 : Byte)].length 3584 ≤ 0x201) := by
  rw [List.length_replicate, List.length_replicate]
  decide

/-- The last font byte, and the first byte past the font. -/
theorem witness_InitializeResets :
    79 < 80 ∧ 80 ≤ 80 := by decide

/-- The first column and the first row outside. -/
theorem witness_HostReadsChangeNothing :
    (64 ≤ 64 ∨ 32 ≤ 0) ∧ (64 ≤ 0 ∨ 32 ≤ 32) := by decide

/-- A call other than the first one. -/
theorem witness_NothingBeforeInitialize :
    HostCall.step ≠ .initCore ∧ HostCall.loadRom none ≠ .initCore := by decide

end Sys2Proof.Tests
end

section
/-! The step of spec/40_step.md: what a fetch reads (R91), the default advance (R92), dispatch (R93), unknown opcodes (R95), and
that the timers change only by the two instructions that set them (R100). -/

open Sys2Proof.Claims

namespace Sys2Proof.Machine

/-! ### Fetch and default advance (R91, R92) -/

/-- The word the claims say a fetch reads is the word `fetchWord` gives (R54, R91). -/
theorem fetches_iff (s : State) (w : Word) : Fetches s w ↔ s.fetchWord = some w := by
  by_cases hpc : s.pc.toNat + 1 < 4096
  · rw [s.fetchWord_some hpc, Option.some.injEq, ← BitVec.toNat_inj, wordOf_toNat]
    exact ⟨fun h => h.2.symm, fun h => ⟨hpc, h.symm⟩⟩
  · have hnone : s.fetchWord = none := s.fetchWord_none.mpr (Nat.not_lt.mp hpc)
    simp [Fetches, hpc, hnone]

/-- The state the claims say dispatch starts from is the model's (R92). -/
theorem advanced_eq_advance (s : State) : advanced s = s.advance := rfl

/-- The default advance does not wrap where a fetch succeeds (R92). -/
theorem State.advance_pc_toNat {s : State} (h : s.pc.toNat + 1 < 4096) : s.advance.pc.toNat = s.pc.toNat + 2 := by
  rw [State.advance_pc, BitVec.toNat_add, show (2 : Word).toNat = 2 from rfl]
  omega

/-- Settles O7: `fetchWord` is `none` exactly from PC + 1 = 4096 on, and otherwise the two bytes at PC. -/
theorem fetchChecksThenReads : Obligations.FetchChecksThenReads :=
  ⟨fun s h => step_fetch_none (s.fetchWord_none.mpr h),
    fun s h => ⟨_, s.fetchWord_some h, (fetches_iff s _).mpr (s.fetchWord_some h)⟩⟩

/-- Settles O8: the diagnostic is recorded on the advanced state, which differs from the one before in PC and result only. -/
theorem unknownOpcodeIsNoOp : Obligations.UnknownOpcodeIsNoOp :=
  fun s w hf hd => step_unknown ((fetches_iff s w).mp hf) hd

/-- Settles O6, from the two dispatch cases of a step and the default advance. -/
theorem stepRunsDecodedInstruction : Obligations.StepRunsDecodedInstruction := by
  intro s w hf
  have hw : s.fetchWord = some w := (fetches_iff s w).mp hf
  have hpc : s.advance.pc.toNat = s.pc.toNat + 2 := State.advance_pc_toNat hf.1
  rw [advanced_eq_advance]
  refine ⟨hpc, ?_, fun i hd => step_decoded hw hd, fun hd => step_unknown hw hd⟩
  have := hf.1
  omega

/-! ### The timers (R100)

Each shared operation keeps both timers, so an instruction changes one only through `setDelay` or `setSound`. -/

/-- Both timers hold in t what they held in s. -/
def KeepsTimers (s t : State) : Prop := t.delay = s.delay ∧ t.sound = s.sound

theorem State.keepsTimers_skipIf (s : State) (c : Bool) : KeepsTimers s (s.skipIf c) := by
  rw [State.skipIf_eq]
  exact ⟨rfl, rfl⟩

theorem State.keepsTimers_pop {s t : State} {w : Word} (h : s.pop = some (w, t)) : KeepsTimers s t := by
  rw [(State.pop_some h).1]
  exact ⟨rfl, rfl⟩

theorem State.keepsTimers_push {s t : State} {w : Word} (h : s.push w = some t) : KeepsTimers s t := by
  rw [(State.push_some h).1]
  exact ⟨rfl, rfl⟩

theorem State.keepsTimers_drawKey {s t : State} {k : Fin 16} (h : s.drawKey = some (k, t)) : KeepsTimers s t := by
  rw [(State.drawKey_some h).2]
  exact ⟨rfl, rfl⟩

theorem State.keepsTimers_drawRows (s : State) (cx cy r count : Nat) : KeepsTimers s (s.drawRows cx cy r count) := by
  rw [State.drawRows_frame]
  exact ⟨rfl, rfl⟩

theorem State.keepsTimers_storeRegs (s : State) (l : List Reg) : KeepsTimers s (s.storeRegs l) := by
  rw [State.storeRegs_frame]
  exact ⟨rfl, rfl⟩

theorem State.keepsTimers_loadRegs (s : State) (l : List Reg) : KeepsTimers s (s.loadRegs l) := by
  rw [State.loadRegs_frame]
  exact ⟨rfl, rfl⟩

/-- What an instruction can do to the timers: `Fx15` sets the delay timer, `Fx18` the sound timer, and every other one keeps both
(R94, R205, R207). -/
theorem exec_timers {i : Instr} {s t : State} (h : exec i s = .next t) :
    KeepsTimers s t ∨ (∃ x, i = .ldDtVx x ∧ t = s.setDelay (s.getV x)) ∨
      ∃ x, i = .ldStVx x ∧ t = s.setSound (s.getV x) := by
  cases i with
  | ldDtVx x => exact .inr (.inl ⟨x, rfl, (Host.Outcome.next.inj h).symm⟩)
  | ldStVx x => exact .inr (.inr ⟨x, rfl, (Host.Outcome.next.inj h).symm⟩)
  | cls | jp | jpV0 | ldImm | addImm | ldReg | orReg | andReg | xorReg | addReg | sub | shr | subn | shl | rnd | ldI
  | ldVxDt | addIVx | ldFVx =>
    obtain rfl := Host.Outcome.next.inj h
    exact .inl ⟨rfl, rfl⟩
  | seImm | sneImm | seReg | sneReg =>
    obtain rfl := Host.Outcome.next.inj h
    exact .inl (s.keepsTimers_skipIf _)
  | drw x y n =>
    obtain rfl := Host.Outcome.next.inj h
    exact .inl ((s.setV regF 0).keepsTimers_drawRows ..)
  | ret =>
    simp only [exec, execRet] at h
    split at h <;> obtain rfl := Host.Outcome.next.inj h
    · exact .inl ⟨rfl, rfl⟩
    · next hp =>
      obtain ⟨hdelay, hsound⟩ := State.keepsTimers_pop hp
      exact .inl ⟨hdelay, hsound⟩
  | call nnn =>
    simp only [exec, execCall] at h
    split at h <;> obtain rfl := Host.Outcome.next.inj h
    · exact .inl ⟨rfl, rfl⟩
    · next hp =>
      obtain ⟨hdelay, hsound⟩ := State.keepsTimers_push hp
      exact .inl ⟨hdelay, hsound⟩
  | skp x | sknp x =>
    simp only [exec, execSkp, execSknp] at h
    split at h <;> obtain rfl := Host.Outcome.next.inj h
    · exact .inl ⟨rfl, rfl⟩
    · exact .inl (s.keepsTimers_skipIf _)
  | ldVxK x =>
    simp only [exec, execLdVxK] at h
    split at h <;> obtain rfl := Host.Outcome.next.inj h
    · exact .inl ⟨rfl, rfl⟩
    · next hk =>
      obtain ⟨hdelay, hsound⟩ := State.keepsTimers_drawKey hk
      exact .inl ⟨hdelay, hsound⟩
  | ldBVx x =>
    simp only [exec, execLdBVx] at h
    split at h <;> obtain rfl := Host.Outcome.next.inj h <;> exact .inl ⟨rfl, rfl⟩
  | ldMemVx x =>
    simp only [exec, execLdMemVx] at h
    split at h <;> obtain rfl := Host.Outcome.next.inj h
    · exact .inl ⟨rfl, rfl⟩
    · exact .inl (s.keepsTimers_storeRegs _)
  | ldVxMem x =>
    simp only [exec, execLdVxMem] at h
    split at h <;> obtain rfl := Host.Outcome.next.inj h
    · exact .inl ⟨rfl, rfl⟩
    · exact .inl (s.keepsTimers_loadRegs _)

/-- Settles O15: a failed fetch and an unknown opcode keep both timers, and a decoded instruction does to them what `exec_timers`
lists. -/
theorem stepsDoNotTick : Obligations.StepsDoNotTick := by
  intro s t h
  rcases s.fetch_cases with ⟨w, hw, -⟩ | ⟨hw, -⟩
  · cases hi : decodeWord w with
    | none =>
      obtain rfl := Host.Outcome.next.inj ((step_unknown hw hi).symm.trans h)
      exact ⟨.inl rfl, .inl rfl⟩
    | some i =>
      have hf : Fetches s w := (fetches_iff s w).mpr hw
      rcases exec_timers ((step_decoded hw hi).symm.trans h) with ⟨hdelay, hsound⟩ | ⟨x, rfl, rfl⟩ | ⟨x, rfl, rfl⟩
      · exact ⟨.inl hdelay, .inl hsound⟩
      · exact ⟨.inr ⟨w, x, hf, hi, rfl⟩, .inl rfl⟩
      · exact ⟨.inl rfl, .inr ⟨w, x, hf, hi, rfl⟩⟩
  · obtain rfl := Host.Outcome.next.inj ((step_fetch_none hw).symm.trans h)
    exact ⟨.inl rfl, .inl rfl⟩

end Sys2Proof.Machine
end

section
/-! The display of spec/41_display.md: `00E0` (R111). -/

namespace Sys2Proof.Machine

/-- What `00E0` does: the display is cleared and `changed` is set (R111). -/
theorem exec_cls (s : State) : exec .cls s = .next (s.clearDisplay.setChanged true) := rfl

/-- Clearing the display and setting `changed` touches no other field (R94, R111). -/
theorem State.clearDisplay_setChanged_frame (s : State) (b : Bool) :
    s.clearDisplay.setChanged b =
      { s with disp := (s.clearDisplay.setChanged b).disp, changed := (s.clearDisplay.setChanged b).changed } := rfl

/-- Settles O23: the word is the fixed word of its row, every pixel of the cleared display reads 0, and the frame is
`State.clearDisplay_setChanged_frame`. -/
theorem clearScreen : Obligations.ClearScreen := by
  refine ⟨by decide, fun s => ⟨_, exec_cls s, fun px py => ?_, State.setChanged_changed .., s.clearDisplay_setChanged_frame true⟩⟩
  rw [State.pixel_setChanged, State.pixel_clearDisplay]

end Sys2Proof.Machine
end

section
/-! The control flow of spec/42_flow.md: `1nnn` (R130), `3xnn` and `4xnn` (R133, R134) and `Bnnn` (R137). -/

open Sys2Proof.Claims

namespace Sys2Proof

/-- The mask 0xF000 of R74 keeps the family and nothing else. -/
theorem family_of_and_F000 {w pattern : Word} (h : w &&& 0xF000#16 = pattern) :
    (family w).toNat = pattern.toNat / 4096 := by
  rw [family_toNat, ← h, and_F000_toNat, Nat.mul_div_cancel _ (by decide)]

/-- A row whose one fixed field is the family is decoded by the family (R74). -/
theorem decodesAs_of_family {pattern : Word} {build : Word → Instr}
    (h : ∀ w, (family w).toNat = pattern.toNat / 4096 → decodeWord w = some (build w)) :
    DecodesAs 0xF000 pattern build :=
  fun w hw => h w (family_of_and_F000 hw)

end Sys2Proof

namespace Sys2Proof.Machine

/-! ### Jumps (R130, R137) -/

/-- What `1nnn` does (R130). -/
theorem exec_jp (nnn : BitVec 12) (s : State) : exec (.jp nnn) s = .next (s.setPc (zextAddr nnn)) := rfl

/-- What `Bnnn` does: the offset register is V[0] (R137). -/
theorem exec_jpV0 (nnn : BitVec 12) (s : State) :
    exec (.jpV0 nnn) s = .next (s.setPc (zextByte (s.getV 0) + zextAddr nnn)) := rfl

/-- Setting PC touches no other field (R94). -/
theorem State.setPc_frame (s : State) (w : Word) : s.setPc w = { s with pc := (s.setPc w).pc } := rfl

/-- Zero extension keeps the value of a 12-bit address (R9). -/
@[simp] theorem zextAddr_toNat (nnn : BitVec 12) : (zextAddr nnn).toNat = nnn.toNat :=
  BitVec.toNat_setWidth_of_le (by decide)

/-- Zero extension keeps the value of a byte (R9). -/
@[simp] theorem zextByte_toNat (b : Byte) : (zextByte b).toNat = b.toNat :=
  BitVec.toNat_setWidth_of_le (by decide)

/-- A byte plus a 12-bit address is at most 4350 and does not wrap in 16 bits (R26, R137). -/
theorem zextByte_add_zextAddr_toNat (b : Byte) (nnn : BitVec 12) :
    (zextByte b + zextAddr nnn).toNat = b.toNat + nnn.toNat := by
  rw [BitVec.toNat_add, zextByte_toNat, zextAddr_toNat]
  omega

/-- Settles O26: the new PC is nnn zero-extended, which has the value of nnn. -/
theorem jump : Obligations.Jump :=
  ⟨decodesAs_of_family fun w h => by simp [decodeWord, h],
    fun nnn s => ⟨_, exec_jp nnn s, zextAddr_toNat nnn, s.setPc_frame _⟩⟩

/-- Settles O31: the new PC is the 16-bit sum of V[0] and nnn, which does not wrap. -/
theorem jumpPlusV0 : Obligations.JumpPlusV0 :=
  ⟨decodesAs_of_family fun w h => by simp [decodeWord, h],
    fun nnn s => ⟨_, exec_jpV0 nnn s, zextByte_add_zextAddr_toNat (s.getV 0) nnn, s.setPc_frame _⟩⟩

/-! ### Skips on an immediate (R133, R134) -/

/-- What `3xnn` does (R133). -/
theorem exec_seImm (x : Reg) (nn : Byte) (s : State) : exec (.seImm x nn) s = .next (s.skipIf (s.getV x == nn)) := rfl

/-- What `4xnn` does (R134). -/
theorem exec_sneImm (x : Reg) (nn : Byte) (s : State) : exec (.sneImm x nn) s = .next (s.skipIf (s.getV x != nn)) := rfl

/-- A skip on equal bytes steps over 2 bytes when they are equal, and changes only PC (R94). -/
theorem State.skipIf_beq (s : State) (a b : Byte) :
    s.skipIf (a == b) = { s with pc := if a = b then s.pc + 2 else s.pc } := by
  rw [State.skipIf_eq]
  simp only [beq_iff_eq, State.setPc]

/-- A skip on different bytes steps over 2 bytes when they differ, and changes only PC (R94). -/
theorem State.skipIf_bne (s : State) (a b : Byte) :
    s.skipIf (a != b) = { s with pc := if a = b then s.pc else s.pc + 2 } := by
  rw [State.skipIf_eq]
  simp only [bne_iff_ne, ne_eq, ite_not, State.setPc]

/-- Settles O29: SE is a skip on equal bytes and SNE a skip on different bytes. -/
theorem skipOnImmediate : Obligations.SkipOnImmediate := by
  refine ⟨decodesAs_of_family fun w h => by simp [decodeWord, h],
    decodesAs_of_family fun w h => by simp [decodeWord, h], fun x nn s => ⟨?_, ?_⟩⟩
  · rw [exec_seImm, State.skipIf_beq]
  · rw [exec_sneImm, State.skipIf_bne]

end Sys2Proof.Machine
end

section
/-! Registers and arithmetic of spec/43_alu.md: `6xnn` and `7xnn` (R150, R151), `8xy0` (R155), `8xy1` to `8xy3` (R156 to R158).
Each of them writes one byte to V[x], so what it keeps is what `setV` keeps. -/

open Sys2Proof.Claims

namespace Sys2Proof

/-- The mask 0xF00F of R74 keeps the family and the low nibble, and nothing else. -/
theorem family_lowNibble_of_and_F00F {w pattern : Word} (h : w &&& 0xF00F#16 = pattern) :
    (family w).toNat = pattern.toNat / 4096 ∧ (lowNibble w).toNat = pattern.toNat % 16 := by
  rw [family_toNat, lowNibble_toNat, ← h, and_F00F_toNat]
  omega

/-- A row whose fixed fields are the family and the low nibble is decoded by these two (R74). -/
theorem decodesAs_of_family_lowNibble {pattern : Word} {build : Word → Instr}
    (h : ∀ w, (family w).toNat = pattern.toNat / 4096 → (lowNibble w).toNat = pattern.toNat % 16 →
      decodeWord w = some (build w)) :
    DecodesAs 0xF00F pattern build := by
  intro w hw
  obtain ⟨hfamily, hlow⟩ := family_lowNibble_of_and_F00F hw
  exact h w hfamily hlow

end Sys2Proof

namespace Sys2Proof.Machine

/-! ### One register written (R94) -/

/-- A register written reads back the byte written (R20). -/
theorem State.getV_setV_self (s : State) (x : Reg) (b : Byte) : (s.setV x b).getV x = b := by
  rw [State.getV_setV, if_pos rfl]

/-- A register other than the one written keeps its value, VF too (R20). -/
theorem State.getV_setV_of_ne (s : State) (x : Reg) (b : Byte) (r : Reg) (h : r ≠ x) :
    (s.setV x b).getV r = s.getV r := by
  rw [State.getV_setV, if_neg h]

/-- Writing a register touches no field but V (R94). -/
theorem State.setV_frame (s : State) (x : Reg) (b : Byte) : s.setV x b = { s with v := (s.setV x b).v } := rfl

/-! ### Immediates (R150, R151) -/

/-- What `6xnn` does (R150). -/
theorem exec_ldImm (x : Reg) (nn : Byte) (s : State) : exec (.ldImm x nn) s = .next (s.setV x nn) := rfl

/-- What `7xnn` does: the sum of bytes wraps mod 256, and VF gets no carry (R151). -/
theorem exec_addImm (x : Reg) (nn : Byte) (s : State) : exec (.addImm x nn) s = .next (s.setV x (s.getV x + nn)) := rfl

/-- Settles O32: LD and ADD each write one register, and the sum of two bytes is the sum mod 256. -/
theorem loadAndAddImmediate : Obligations.LoadAndAddImmediate := by
  refine ⟨decodesAs_of_family fun w h => by simp [decodeWord, h],
    decodesAs_of_family fun w h => by simp [decodeWord, h], fun x nn s => ⟨?_, ?_⟩⟩
  · exact ⟨_, exec_ldImm x nn s, s.getV_setV_self x _, s.getV_setV_of_ne x _, s.setV_frame x _⟩
  · refine ⟨_, exec_addImm x nn s, ?_, s.getV_setV_of_ne x _, s.setV_frame x _⟩
    rw [State.getV_setV_self, BitVec.toNat_add]

/-! ### Copy and bitwise logic (R155 to R158) -/

/-- What `8xy0` does (R155). -/
theorem exec_ldReg (x y : Reg) (s : State) : exec (.ldReg x y) s = .next (s.setV x (s.getV y)) := rfl

/-- What `8xy1` does (R156). -/
theorem exec_orReg (x y : Reg) (s : State) : exec (.orReg x y) s = .next (s.setV x (s.getV x ||| s.getV y)) := rfl

/-- What `8xy2` does (R157). -/
theorem exec_andReg (x y : Reg) (s : State) : exec (.andReg x y) s = .next (s.setV x (s.getV x &&& s.getV y)) := rfl

/-- What `8xy3` does (R158). -/
theorem exec_xorReg (x y : Reg) (s : State) : exec (.xorReg x y) s = .next (s.setV x (s.getV x ^^^ s.getV y)) := rfl

/-- Settles O33: LD writes one register, and the byte it writes is V[y] as it was before. -/
theorem copyRegister : Obligations.CopyRegister :=
  ⟨decodesAs_of_family_lowNibble fun w hf hn => by simp [decodeWord, decodeFamily8, hf, hn],
    fun x y s => ⟨_, exec_ldReg x y s, s.getV_setV_self x _, s.getV_setV_of_ne x _, s.setV_frame x _⟩⟩

/-- Settles O34: OR, AND and XOR each write one register, and the byte written is combined bit by bit. -/
theorem bitwiseLogic : Obligations.BitwiseLogic := by
  refine ⟨decodesAs_of_family_lowNibble fun w hf hn => by simp [decodeWord, decodeFamily8, hf, hn],
    decodesAs_of_family_lowNibble fun w hf hn => by simp [decodeWord, decodeFamily8, hf, hn],
    decodesAs_of_family_lowNibble fun w hf hn => by simp [decodeWord, decodeFamily8, hf, hn],
    fun x y s => ⟨?_, ?_, ?_⟩⟩
  · refine ⟨_, exec_orReg x y s, fun k => ?_, s.getV_setV_of_ne x _, s.setV_frame x _⟩
    rw [State.getV_setV_self, BitVec.getLsbD_or]
  · refine ⟨_, exec_andReg x y s, fun k => ?_, s.getV_setV_of_ne x _, s.setV_frame x _⟩
    rw [State.getV_setV_self, BitVec.getLsbD_and]
  · refine ⟨_, exec_xorReg x y s, fun k => ?_, s.getV_setV_of_ne x _, s.setV_frame x _⟩
    rw [State.getV_setV_self, BitVec.getLsbD_xor]

end Sys2Proof.Machine
end

section
/-! The index register of spec/44_index_memory.md: `Annn` (R180), `Fx1E` (R181) and `Fx29` (R182). Each of them is one `setI`,
so what it keeps is what `setI` keeps. -/

open Sys2Proof.Claims

namespace Sys2Proof

/-- The mask 0xF0FF of R74 keeps the family and the low byte, and nothing else. -/
theorem family_fieldNN_of_and_F0FF {w pattern : Word} (h : w &&& 0xF0FF#16 = pattern) :
    (family w).toNat = pattern.toNat / 4096 ∧ fieldNN w = pattern.setWidth 8 := by
  rw [family_toNat, ← BitVec.toNat_inj, fieldNN_toNat, BitVec.toNat_setWidth, ← h, and_F0FF_toNat]
  omega

/-- A row whose fixed fields are the family and the low byte is decoded by these two (R74). -/
theorem decodesAs_of_family_fieldNN {pattern : Word} {build : Word → Instr}
    (h : ∀ w, (family w).toNat = pattern.toNat / 4096 → fieldNN w = pattern.setWidth 8 → decodeWord w = some (build w)) :
    DecodesAs 0xF0FF pattern build := by
  intro w hw
  obtain ⟨hfamily, hlow⟩ := family_fieldNN_of_and_F0FF hw
  exact h w hfamily hlow

end Sys2Proof

namespace Sys2Proof.Machine

/-- Setting I touches no other field (R94). -/
theorem State.setI_frame (s : State) (w : Word) : s.setI w = { s with index := (s.setI w).index } := rfl

/-- What `Annn` does (R180). -/
theorem exec_ldI (nnn : BitVec 12) (s : State) : exec (.ldI nnn) s = .next (s.setI (zextAddr nnn)) := rfl

/-- What `Fx1E` does: the sum wraps mod 65536, and VF gets no carry (R181). -/
theorem exec_addIVx (x : Reg) (s : State) : exec (.addIVx x) s = .next (s.setI (s.index + zextByte (s.getV x))) := rfl

/-- What `Fx29` does: the glyph is that of the whole byte V[x] (R182). -/
theorem exec_ldFVx (x : Reg) (s : State) : exec (.ldFVx x) s = .next (s.setI (glyphAddr (s.getV x))) := rfl

/-- The sum of a word and a byte is the sum mod 65536 (R181). -/
theorem add_zextByte_toNat (w : Word) (b : Byte) : (w + zextByte b).toNat = (w.toNat + b.toNat) % 65536 := by
  rw [BitVec.toNat_add, zextByte_toNat]

/-- Five times a byte is at most 1275 and does not wrap in 16 bits (R182). -/
theorem glyphAddr_toNat (b : Byte) : (glyphAddr b).toNat = b.toNat * 5 := by
  rw [glyphAddr, BitVec.toNat_mul, zextByte_toNat, show (5 : Word).toNat = 5 from rfl]
  omega

/-- Settles O41: each of the three is a `setI` of a word whose value is the one stated. -/
theorem indexWrites : Obligations.IndexWrites := by
  refine ⟨decodesAs_of_family fun w h => by simp [decodeWord, h],
    decodesAs_of_family_fieldNN fun w hf hn => by simp [decodeWord, decodeFamilyF, hf, hn],
    decodesAs_of_family_fieldNN fun w hf hn => by simp [decodeWord, decodeFamilyF, hf, hn],
    fun nnn x s => ⟨?_, ?_, ?_⟩⟩
  · exact ⟨_, exec_ldI nnn s, zextAddr_toNat nnn, s.setI_frame _⟩
  · exact ⟨_, exec_addIVx x s, add_zextByte_toNat s.index (s.getV x), s.setI_frame _⟩
  · exact ⟨_, exec_ldFVx x s, glyphAddr_toNat (s.getV x), s.setI_frame _⟩

end Sys2Proof.Machine
end

section
/-! The timers of spec/45_keys_timers.md: the moves `Fx07`, `Fx15` and `Fx18` (R204, R205, R207), and the host's `tick` (R210). -/

open Sys2Proof.Claims

namespace Sys2Proof.Machine

/-! ### The moves between V[x] and the timers (R204, R205, R207) -/

/-- What `Fx07` does (R204). -/
theorem exec_ldVxDt (x : Reg) (s : State) : exec (.ldVxDt x) s = .next (s.setV x s.delay) := rfl

/-- What `Fx15` does (R205). -/
theorem exec_ldDtVx (x : Reg) (s : State) : exec (.ldDtVx x) s = .next (s.setDelay (s.getV x)) := rfl

/-- What `Fx18` does (R207). -/
theorem exec_ldStVx (x : Reg) (s : State) : exec (.ldStVx x) s = .next (s.setSound (s.getV x)) := rfl

/-- Settles O52: the read of the delay timer writes one register, and each of the other two is the write of one timer. -/
theorem timerMoves : Obligations.TimerMoves := by
  refine ⟨decodesAs_of_family_fieldNN fun w hf hn => by simp [decodeWord, decodeFamilyF, hf, hn],
    decodesAs_of_family_fieldNN fun w hf hn => by simp [decodeWord, decodeFamilyF, hf, hn],
    decodesAs_of_family_fieldNN fun w hf hn => by simp [decodeWord, decodeFamilyF, hf, hn],
    fun x s => ⟨?_, exec_ldDtVx x s, exec_ldStVx x s⟩⟩
  exact ⟨_, exec_ldVxDt x s, s.getV_setV_self x _, s.getV_setV_of_ne x _, s.setV_frame x _⟩

/-! ### The tick (R210) -/

/-- What the host call `tick` does on an initialized core (R210, R233). -/
theorem Session.call_tick (s : State) : (Session.ready s).call .tick = .next (.ready s.tick, .nothing) := rfl

/-- A tick sets the delay timer to its decrement. -/
@[simp] theorem State.tick_delay (s : State) : s.tick.delay = tickDown s.delay := rfl

/-- A tick sets the sound timer to its decrement. -/
@[simp] theorem State.tick_sound (s : State) : s.tick.sound = tickDown s.sound := rfl

/-- A tick touches no field but the timers (R210). -/
theorem State.tick_frame (s : State) : s.tick = { s with delay := s.tick.delay, sound := s.tick.sound } := rfl

/-- A timer's decrement is truncated subtraction: 0 stays 0, and from 1 up the byte does not wrap (R210). -/
@[simp] theorem tickDown_toNat (b : Byte) : (tickDown b).toNat = b.toNat - 1 := by
  rw [tickDown]
  split
  · next hzero => rw [hzero]; rfl
  · next hpos =>
    have hone : (1 : Byte) ≤ b := by bv_omega
    exact BitVec.toNat_sub_of_le hone

/-- Settles O53: `tick` sets each timer to its floored decrement, and changes nothing else. -/
theorem tickDecrementsTimers : Obligations.TickDecrementsTimers :=
  fun s => ⟨s.tick, Session.call_tick s, by rw [State.tick_delay, tickDown_toNat], by rw [State.tick_sound, tickDown_toNat],
    s.tick_frame⟩

end Sys2Proof.Machine
end

section
/-! The host's access to the `changed` flag of spec/60_exceptions.md: `displayChanged` reads it and `clearChanged` clears it
(R237). -/

namespace Sys2Proof.Machine

/-- What the host call `displayChanged` does on an initialized core (R233, R237). -/
theorem Session.call_displayChanged (s : State) :
    (Session.ready s).call .displayChanged = .next (.ready s, .bit s.displayChanged) := rfl

/-- What the host call `clearChanged` does on an initialized core (R233, R237). -/
theorem Session.call_clearChanged (s : State) :
    (Session.ready s).call .clearChanged = .next (.ready s.clearChanged, .nothing) := rfl

/-- The reply of `displayChanged` is the flag as it stands. -/
@[simp] theorem State.displayChanged_eq (s : State) : s.displayChanged = s.changed := rfl

/-- Clearing the flag sets it to 0 and touches no other field (R237). -/
theorem State.clearChanged_eq (s : State) : s.clearChanged = { s with changed := false } := rfl

/-- Settles O58: the first call replies with the flag on the same state, and the second is the write of that one field. -/
theorem changedFlagAccess : Obligations.ChangedFlagAccess := by
  refine fun s => ⟨?_, ?_⟩
  · rw [Session.call_displayChanged, State.displayChanged_eq]
  · rw [Session.call_clearChanged, State.clearChanged_eq]

end Sys2Proof.Machine
end

section
/-! Encoding and decoding of spec/30_encoding.md: the fields of an assembled word (R72), a word put together again from its fields,
the decoder after the encoder and the encoder after the decoder, and the unknown words (R76). -/

open Sys2Proof.Claims

namespace Sys2Proof

/-! ### The fields of an assembled word (R71, R72) -/

@[simp] theorem family_formatNNN (f : BitVec 4) (nnn : BitVec 12) : family (f ++ nnn) = f := by
  apply BitVec.eq_of_toNat_eq
  rw [family_toNat, formatNNN_toNat]
  omega

@[simp] theorem fieldNNN_formatNNN (f : BitVec 4) (nnn : BitVec 12) : fieldNNN (f ++ nnn) = nnn := by
  apply BitVec.eq_of_toNat_eq
  rw [fieldNNN_toNat, formatNNN_toNat]
  omega

@[simp] theorem family_formatXNN (f : BitVec 4) (x : Reg) (nn : Byte) : family (f ++ regBits x ++ nn) = f := by
  apply BitVec.eq_of_toNat_eq
  rw [family_toNat, formatXNN_toNat]
  omega

@[simp] theorem fieldX_formatXNN (f : BitVec 4) (x : Reg) (nn : Byte) : fieldX (f ++ regBits x ++ nn) = x := by
  apply Fin.ext
  rw [fieldX_val, formatXNN_toNat]
  omega

@[simp] theorem fieldNN_formatXNN (f : BitVec 4) (x : Reg) (nn : Byte) : fieldNN (f ++ regBits x ++ nn) = nn := by
  apply BitVec.eq_of_toNat_eq
  rw [fieldNN_toNat, formatXNN_toNat]
  omega

@[simp] theorem family_formatXYN (f : BitVec 4) (x y : Reg) (n : BitVec 4) :
    family (f ++ regBits x ++ regBits y ++ n) = f := by
  apply BitVec.eq_of_toNat_eq
  rw [family_toNat, formatXYN_toNat]
  omega

@[simp] theorem fieldX_formatXYN (f : BitVec 4) (x y : Reg) (n : BitVec 4) :
    fieldX (f ++ regBits x ++ regBits y ++ n) = x := by
  apply Fin.ext
  rw [fieldX_val, formatXYN_toNat]
  omega

@[simp] theorem fieldY_formatXYN (f : BitVec 4) (x y : Reg) (n : BitVec 4) :
    fieldY (f ++ regBits x ++ regBits y ++ n) = y := by
  apply Fin.ext
  rw [fieldY_val, formatXYN_toNat]
  omega

@[simp] theorem lowNibble_formatXYN (f : BitVec 4) (x y : Reg) (n : BitVec 4) :
    lowNibble (f ++ regBits x ++ regBits y ++ n) = n := by
  apply BitVec.eq_of_toNat_eq
  rw [lowNibble_toNat, formatXYN_toNat]
  omega

/-! ### The decoder after the encoder -/

/-- The word of a well-formed instruction decodes to that instruction: the row's fixed fields select it, and its format keeps every
bit of the operands. -/
theorem decodeWord_encodeWord {i : Instr} (h : i.WellFormed) : decodeWord (encodeWord i) = some i := by
  cases i with
  | cls | ret => rfl
  | jp | call | ldI | jpV0 => simp [encodeWord, decodeWord]
  | seImm | sneImm | ldImm | addImm | rnd => simp [encodeWord, decodeWord]
  | seReg | sneReg => simp [encodeWord, decodeWord]
  | ldReg | orReg | andReg | xorReg | addReg | sub | shr | subn | shl => simp [encodeWord, decodeWord, decodeFamily8]
  | drw x y n =>
    have hn : n < 16 := (wellFormed_drw x y n).mp h
    simp [encodeWord, decodeWord, fieldN, Nat.mod_eq_of_lt hn]
  | skp | sknp => simp [encodeWord, decodeWord, decodeFamilyE]
  | ldVxDt | ldVxK | ldDtVx | ldStVx | addIVx | ldFVx | ldBVx | ldMemVx | ldVxMem =>
    simp [encodeWord, decodeWord, decodeFamilyF]

/-- Settles O1: the encoded bytes are those of the instruction's word, high byte first, and that word decodes to the instruction. -/
theorem decodeAfterEncode : Obligations.DecodeAfterEncode := by
  intro i rest h
  change decode (highByte (encodeWord i) :: lowByte (encodeWord i) :: rest) = _
  rw [decode_bytes, decodeWord_encodeWord h]

/-! ### A word put together again from its fields (R72) -/

theorem formatNNN_fields {w : Word} {f : BitVec 4} (hf : (family w).toNat = f.toNat) : f ++ fieldNNN w = w := by
  apply BitVec.eq_of_toNat_eq
  rw [formatNNN_toNat, fieldNNN_toNat, ← hf, family_toNat]
  omega

theorem formatXNN_fields {w : Word} {f : BitVec 4} {nn : Byte} (hf : (family w).toNat = f.toNat) (hn : fieldNN w = nn) :
    f ++ regBits (fieldX w) ++ nn = w := by
  apply BitVec.eq_of_toNat_eq
  rw [formatXNN_toNat, fieldX_val, ← hn, fieldNN_toNat, ← hf, family_toNat]
  omega

theorem formatXYN_fields {w : Word} {f n : BitVec 4} (hf : (family w).toNat = f.toNat)
    (hn : (lowNibble w).toNat = n.toNat) : f ++ regBits (fieldX w) ++ regBits (fieldY w) ++ n = w := by
  apply BitVec.eq_of_toNat_eq
  rw [formatXYN_toNat, fieldX_val, fieldY_val, ← hn, lowNibble_toNat, ← hf, family_toNat]
  omega

/-! ### The encoder after the decoder -/

/-- The word is the encoding of the instruction, which is well formed. -/
def EncodedBy (w : Word) (i : Instr) : Prop := i.WellFormed ∧ encodeWord i = w

theorem encodedBy_of_decodeFamily0 {w : Word} {i : Instr} (h : decodeFamily0 w = some i) : EncodedBy w i := by
  unfold decodeFamily0 at h
  split at h
  · next hw => obtain rfl := Option.some.inj h; exact ⟨rfl, hw.symm⟩
  · split at h
    · next hw => obtain rfl := Option.some.inj h; exact ⟨rfl, hw.symm⟩
    · cases h

theorem encodedBy_of_decodeFamily8 {w : Word} {i : Instr} (hf : (family w).toNat = 8) (h : decodeFamily8 w = some i) :
    EncodedBy w i := by
  unfold decodeFamily8 at h
  split at h <;> cases h <;> exact ⟨rfl, formatXYN_fields hf ‹_›⟩

theorem encodedBy_of_decodeFamilyE {w : Word} {i : Instr} (hf : (family w).toNat = 14) (h : decodeFamilyE w = some i) :
    EncodedBy w i := by
  unfold decodeFamilyE at h
  split at h
  · cases h; exact ⟨rfl, formatXNN_fields hf ‹_›⟩
  · split at h <;> cases h
    exact ⟨rfl, formatXNN_fields hf ‹_›⟩

theorem encodedBy_of_decodeFamilyF {w : Word} {i : Instr} (hf : (family w).toNat = 15) (h : decodeFamilyF w = some i) :
    EncodedBy w i := by
  unfold decodeFamilyF at h
  repeat' split at h
  all_goals cases h <;> exact ⟨rfl, formatXNN_fields hf ‹_›⟩

/-- A word that decodes is put together again by the format of its row. -/
theorem encodedBy_of_decodeWord {w : Word} {i : Instr} (h : decodeWord w = some i) : EncodedBy w i := by
  have hlt : (family w).toNat < 16 := (family w).isLt
  unfold decodeWord at h
  split at h
  case h_1 => exact encodedBy_of_decodeFamily0 h
  case h_6 hf | h_10 hf =>
    split at h <;> cases h
    exact ⟨rfl, formatXYN_fields hf (congrArg BitVec.toNat ‹_›)⟩
  case h_9 hf => exact encodedBy_of_decodeFamily8 hf h
  case h_14 hf =>
    cases h
    exact ⟨(wellFormed_drw ..).mpr (lowNibble w).isLt, formatXYN_fields hf (by simp [fieldN])⟩
  case h_15 hf => exact encodedBy_of_decodeFamilyE hf h
  case h_16 => exact encodedBy_of_decodeFamilyF (by simp only [imp_false] at *; omega) h
  case h_2 hf | h_3 hf | h_11 hf | h_12 hf => cases h; exact ⟨rfl, formatNNN_fields hf⟩
  case h_4 hf | h_5 hf | h_7 hf | h_8 hf | h_13 hf => cases h; exact ⟨rfl, formatXNN_fields hf rfl⟩

/-- Settles O2, by the formats of the rows (R72). -/
theorem encodeAfterDecode : Obligations.EncodeAfterDecode := fun _ _ h => encodedBy_of_decodeWord h

/-- An instruction's word is that of the fetch that decodes to it. -/
theorem encodeWord_of_decodeWord {w : Word} {i : Instr} (h : decodeWord w = some i) : encodeWord i = w :=
  (encodedBy_of_decodeWord h).2

/-! ### Unknown words, family by family (R76) -/

/-- A chain of patterns gives nothing when the first does not match and the rest gives nothing. -/
theorem ite_some_eq_none {α : Type} {c : Prop} [Decidable c] {a : α} {rest : Option α} :
    (if c then some a else rest) = none ↔ ¬c ∧ rest = none := by
  by_cases hc : c <;> simp [hc]

theorem decodeFamily0_eq_none (w : Word) : decodeFamily0 w = none ↔ w ≠ 0x00E0 ∧ w ≠ 0x00EE := by
  simp [decodeFamily0, ite_some_eq_none]

theorem decodeFamily8_eq_none (w : Word) :
    decodeFamily8 w = none ↔ lowNibble w ∈ [0x8#4, 0x9#4, 0xA#4, 0xB#4, 0xC#4, 0xD#4, 0xF#4] := by
  have hlt : (lowNibble w).toNat < 16 := (lowNibble w).isLt
  simp only [decodeFamily8, List.mem_cons, List.not_mem_nil, ← BitVec.toNat_inj, BitVec.toNat_ofNat]
  split
  case h_10 => simp only [true_iff, imp_false] at *; omega
  all_goals simp [*]

theorem decodeFamilyE_eq_none (w : Word) : decodeFamilyE w = none ↔ fieldNN w ≠ 0x9E ∧ fieldNN w ≠ 0xA1 := by
  simp [decodeFamilyE, ite_some_eq_none]

theorem decodeFamilyF_eq_none (w : Word) :
    decodeFamilyF w = none ↔
      fieldNN w ∉ [0x07#8, 0x0A#8, 0x15#8, 0x18#8, 0x1E#8, 0x29#8, 0x33#8, 0x55#8, 0x65#8] := by
  simp [decodeFamilyF, ite_some_eq_none]

/-- Settles O4: one family at a time, where at most one clause of the list is about the family at hand. -/
theorem unknownWordsByFamily : Obligations.UnknownWordsByFamily := by
  intro w
  rw [← decodeFamily0_eq_none, ← decodeFamily8_eq_none, ← decodeFamilyE_eq_none, ← decodeFamilyF_eq_none]
  have hlt : (family w).toNat < 16 := (family w).isLt
  have hf : family w = BitVec.ofNat 4 (family w).toNat := by simp
  generalize hk : (family w).toNat = k at hlt hf
  interval_cases k <;> simp [decodeWord, hf]

/-- Settles O5: each of the seven words is decoded by evaluation. -/
theorem sampleWordsDecode : Obligations.SampleWordsDecode := by
  unfold Obligations.SampleWordsDecode
  decide

end Sys2Proof
end

section
/-! The rest of the control flow of spec/42_flow.md: `00EE` (R131), `2nnn` (R132), `5xy0` and `9xy0` (R135, R136). -/

open Sys2Proof.Claims

namespace Sys2Proof

/-- The mask 0x000F keeps the low nibble and nothing else. -/
theorem and_000F_toNat (w : Word) : (w &&& 0x000F#16).toNat = (lowNibble w).toNat := by
  rw [BitVec.toNat_and, lowNibble_toNat]
  exact Nat.and_two_pow_sub_one_eq_mod w.toNat 4

theorem lowNibble_ne_zero_of_and_000F {w : Word} (h : w &&& 0x000F#16 ≠ 0) : lowNibble w ≠ 0 := by
  intro hn
  apply h
  apply BitVec.eq_of_toNat_eq
  rw [and_000F_toNat, hn]
  rfl

end Sys2Proof

namespace Sys2Proof.Machine

/-! ### Return and call (R131, R132) -/

/-- `00EE` with an empty stack (R131). -/
theorem exec_ret_of_empty {s : State} (h : s.sp = 0) :
    exec .ret s = .next (s.raise .stackUnderflow (some (encodeWord .ret)) none) := by
  simp [exec, execRet, s.pop_none.mpr h]

/-- `00EE` otherwise: the popped word becomes PC (R131). -/
theorem exec_ret_of_pop {s u : State} {w : Word} (h : s.pop = some (w, u)) : exec .ret s = .next (u.setPc w) := by
  simp [exec, execRet, h]

theorem State.exists_pop {s : State} (h : s.sp ≠ 0) : ∃ w u, s.pop = some (w, u) := by
  cases hp : s.pop with
  | none => exact absurd (s.pop_none.mp hp) h
  | some p => exact ⟨p.1, p.2, rfl⟩

/-- `2nnn` with a full stack (R132). -/
theorem exec_call_of_full {s : State} (nnn : BitVec 12) (h : s.sp = 16) :
    exec (.call nnn) s = .next (s.raise .stackOverflow (some (encodeWord (.call nnn))) none) := by
  simp [exec, execCall, (s.push_none s.pc).mpr h]

/-- `2nnn` otherwise: PC is pushed and nnn becomes PC (R132). -/
theorem exec_call_of_push {s u : State} (nnn : BitVec 12) (h : s.push s.pc = some u) :
    exec (.call nnn) s = .next (u.setPc (zextAddr nnn)) := by
  simp [exec, execCall, h]

theorem State.exists_push {s : State} (w : Word) (h : s.sp ≠ 16) : ∃ u, s.push w = some u := by
  cases hp : s.push w with
  | none => exact absurd ((s.push_none w).mp hp) h
  | some u => exact ⟨u, rfl⟩

/-- Settles O27: what a pop gives is `State.pop_some`, and an empty stack is the error. -/
theorem returnPops : Obligations.ReturnPops := by
  refine ⟨rfl, fun s h => ?_, fun s h => exec_ret_of_empty h⟩
  obtain ⟨w, u, hp⟩ := State.exists_pop h
  obtain ⟨hframe, hsp, hslot⟩ := State.pop_some hp
  refine ⟨_, exec_ret_of_pop hp, hsp.symm, hslot, ?_⟩
  rw [hframe]
  rfl

/-- Settles O28: what a push does is `State.push_some`, and a full stack is the error. -/
theorem callPushes : Obligations.CallPushes := by
  refine ⟨decodesAs_of_family fun w h => by simp [decodeWord, h], fun nnn s h => ?_, fun nnn s h => ?_⟩
  · obtain ⟨u, hp⟩ := State.exists_push s.pc h
    obtain ⟨hframe, hsp, hslot⟩ := State.push_some hp
    refine ⟨_, exec_call_of_push nnn hp, hsp, zextAddr_toNat nnn, hslot, ?_⟩
    rw [hframe]
    rfl
  · exact ⟨encodeWord (.call nnn), formatNNN_toNat 2 nnn, exec_call_of_full nnn h⟩

/-! ### Skips on registers (R135, R136) -/

/-- What `5xy0` does (R135). -/
theorem exec_seReg (x y : Reg) (s : State) : exec (.seReg x y) s = .next (s.skipIf (s.getV x == s.getV y)) := rfl

/-- What `9xy0` does (R136). -/
theorem exec_sneReg (x y : Reg) (s : State) : exec (.sneReg x y) s = .next (s.skipIf (s.getV x != s.getV y)) := rfl

/-- Settles O30: SE is a skip on equal registers and SNE a skip on different ones, and both patterns fix the low nibble. -/
theorem skipOnRegister : Obligations.SkipOnRegister := by
  refine ⟨decodesAs_of_family_lowNibble fun w hf hn => ?_, decodesAs_of_family_lowNibble fun w hf hn => ?_,
    fun w hf hn => ?_, fun x y s => ⟨?_, ?_⟩⟩
  · simp [decodeWord, hf, BitVec.eq_of_toNat_eq (y := 0#4) hn]
  · simp [decodeWord, hf, BitVec.eq_of_toNat_eq (y := 0#4) hn]
  · have hlow : ¬lowNibble w = 0#4 := lowNibble_ne_zero_of_and_000F hn
    rcases hf with hf | hf <;> simp [decodeWord, family_of_and_F000 hf, hlow]
  · rw [exec_seReg, State.skipIf_beq]
  · rw [exec_sneReg, State.skipIf_bne]

end Sys2Proof.Machine
end

section
/-! The flag-producing arithmetic of spec/43_alu.md: `8xy4` to `8xy7` and `8xyE` (R160 to R166), and `Cxnn` (R171). Each of the five
writes VF and then V[x], so with x = 15 the result is what stays (decision D5). -/

open Sys2Proof.Claims

namespace Sys2Proof.Machine

/-! ### A flag written, then a result (R153) -/

/-- The flag stays when the result goes to another register. -/
theorem State.getV_flag_setV (s : State) {x : Reg} (flag b : Byte) (h : x ≠ 15) :
    ((s.setV regF flag).setV x b).getV 15 = flag := by
  rw [State.getV_setV_of_ne _ _ _ _ h.symm, State.getV_setV_self]

/-- A register that gets neither the flag nor the result keeps its value. -/
theorem State.getV_flag_setV_of_ne (s : State) (x : Reg) (flag b : Byte) (r : Reg) (hx : r ≠ x) (hf : r ≠ 15) :
    ((s.setV regF flag).setV x b).getV r = s.getV r := by
  rw [State.getV_setV_of_ne _ _ _ _ hx, State.getV_setV_of_ne _ _ _ _ hf]

/-- Writing two registers touches no field but V (R94). -/
theorem State.flag_setV_frame (s : State) (x : Reg) (flag b : Byte) :
    (s.setV regF flag).setV x b = { s with v := ((s.setV regF flag).setV x b).v } := rfl

/-- The model's flag byte of a decided condition is the claims' (R166). -/
theorem flagByte_decide (p : Prop) [Decidable p] : flagByte (decide p) = bit p := by
  by_cases h : p <;> simp [flagByte, bit, h]

theorem carryFlag_eq (a b : Byte) : carryFlag a b = bit (a.toNat + b.toNat > 255) := flagByte_decide _

theorem noBorrowFlag_eq (a b : Byte) : noBorrowFlag a b = bit (a.toNat ≥ b.toNat) := flagByte_decide _

/-! ### Sum and differences (R160 to R162) -/

/-- What `8xy4` does: the sum is that of the old values (R160). -/
theorem exec_addReg (x y : Reg) (s : State) :
    exec (.addReg x y) s =
      .next ((s.setV regF (carryFlag (s.getV x) (s.getV y))).setV x (s.getV x + s.getV y)) := rfl

/-- Settles O35: the flag is written first, so with x = 15 the sum overwrites it. -/
theorem addWithCarry : Obligations.AddWithCarry := by
  refine ⟨decodesAs_of_family_lowNibble fun w hf hn => by simp [decodeWord, decodeFamily8, hf, hn],
    fun x y s => ⟨_, exec_addReg x y s, ?_, fun hx => ?_, s.getV_flag_setV_of_ne x _ _, s.flag_setV_frame x _ _⟩⟩
  · rw [State.getV_setV_self, BitVec.toNat_add]
  · rw [s.getV_flag_setV _ _ hx, carryFlag_eq]

/-- What `8xy5` does: the difference reads the registers after VF is written (R161). -/
theorem exec_sub (x y : Reg) (s : State) :
    exec (.sub x y) s =
      .next ((s.setV regF (noBorrowFlag (s.getV x) (s.getV y))).setV x
        ((s.setV regF (noBorrowFlag (s.getV x) (s.getV y))).getV x -
          (s.setV regF (noBorrowFlag (s.getV x) (s.getV y))).getV y)) := rfl

/-- Settles O36: each operand is the flag when its register is 15, and the old value otherwise (R166). -/
theorem subtractNoBorrow : Obligations.SubtractNoBorrow := by
  refine ⟨decodesAs_of_family_lowNibble fun w hf hn => by simp [decodeWord, decodeFamily8, hf, hn],
    fun x y s => ⟨_, exec_sub x y s, fun hx => ?_, fun hx hy => ?_, fun hx hy => ?_, fun hx hy => ?_, fun hx hy => ?_,
      s.getV_flag_setV_of_ne x _ _, s.flag_setV_frame x _ _⟩⟩
  · rw [s.getV_flag_setV _ _ hx, noBorrowFlag_eq]
  · simp [hx, hy]
  · subst hy
    simp [hx, noBorrowFlag_eq]
  · subst hx
    simp [hy, noBorrowFlag_eq]
  · subst hx hy
    simp

/-- What `8xy7` does: the difference reads the registers after VF is written (R162). -/
theorem exec_subn (x y : Reg) (s : State) :
    exec (.subn x y) s =
      .next ((s.setV regF (noBorrowFlag (s.getV y) (s.getV x))).setV x
        ((s.setV regF (noBorrowFlag (s.getV y) (s.getV x))).getV y -
          (s.setV regF (noBorrowFlag (s.getV y) (s.getV x))).getV x)) := rfl

/-- Settles O37: as for SUB with the operands exchanged (R166). -/
theorem subtractReversed : Obligations.SubtractReversed := by
  refine ⟨decodesAs_of_family_lowNibble fun w hf hn => by simp [decodeWord, decodeFamily8, hf, hn],
    fun x y s => ⟨_, exec_subn x y s, fun hx => ?_, fun hx hy => ?_, fun hx hy => ?_, fun hx hy => ?_, fun hx hy => ?_,
      s.getV_flag_setV_of_ne x _ _, s.flag_setV_frame x _ _⟩⟩
  · rw [s.getV_flag_setV _ _ hx, noBorrowFlag_eq]
  · simp [hx, hy]
  · subst hy
    simp [hx, noBorrowFlag_eq]
  · subst hx
    simp [hy, noBorrowFlag_eq]
  · subst hx hy
    simp

/-! ### Shifts (R163, R165) -/

/-- What `8xy6` does: V[x] is read again after VF is written (R163). -/
theorem exec_shr (x y : Reg) (s : State) :
    exec (.shr x y) s =
      .next ((s.setV regF (shiftOutRight (s.getV x))).setV x
        ((s.setV regF (shiftOutRight (s.getV x))).getV x >>> 1)) := rfl

/-- What `8xyE` does: V[x] is read again after VF is written (R165). -/
theorem exec_shl (x y : Reg) (s : State) :
    exec (.shl x y) s =
      .next ((s.setV regF (shiftOutLeft (s.getV x))).setV x
        ((s.setV regF (shiftOutLeft (s.getV x))).getV x <<< 1)) := rfl

theorem shiftRight_one_toNat (b : Byte) : (b >>> 1).toNat = b.toNat / 2 := by
  rw [BitVec.toNat_ushiftRight, Nat.shiftRight_eq_div_pow, Nat.pow_one]

theorem shiftLeft_one_toNat (b : Byte) : (b <<< 1).toNat = 2 * b.toNat % 256 := by
  rw [BitVec.toNat_shiftLeft, Nat.shiftLeft_eq, Nat.pow_one, Nat.mul_comm]

theorem shiftOutRight_toNat (b : Byte) : (shiftOutRight b).toNat = b.toNat % 2 := by
  rw [shiftOutRight, BitVec.toNat_and]
  exact Nat.and_two_pow_sub_one_eq_mod b.toNat 1

/-- Bit 7 is the top bit of a byte, so it is what a division by 128 leaves. -/
theorem shiftOutLeft_toNat (b : Byte) : (shiftOutLeft b).toNat = b.toNat / 128 := by
  have hmod : (shiftOutLeft b).toNat = (b >>> 7).toNat % 2 := shiftOutRight_toNat (b >>> 7)
  rw [hmod, BitVec.toNat_ushiftRight, Nat.shiftRight_eq_div_pow]
  omega

/-- Settles O38: with x = 15 the byte shifted is the flag, which is below 2. -/
theorem shiftRightOne : Obligations.ShiftRightOne := by
  refine ⟨decodesAs_of_family_lowNibble fun w hf hn => by simp [decodeWord, decodeFamily8, hf, hn],
    fun x y s => ⟨_, exec_shr x y s, fun hx => ⟨?_, ?_⟩, fun hx => ?_, s.getV_flag_setV_of_ne x _ _,
      s.flag_setV_frame x _ _⟩⟩
  · rw [State.getV_setV_self, State.getV_setV_of_ne _ _ _ _ hx, shiftRight_one_toNat]
  · rw [s.getV_flag_setV _ _ hx, shiftOutRight_toNat]
  · subst hx
    apply BitVec.eq_of_toNat_eq
    rw [State.getV_setV_self, State.getV_setV_self, shiftRight_one_toNat, shiftOutRight_toNat]
    exact Nat.div_eq_of_lt (Nat.mod_lt _ Nat.two_pos)

/-- Settles O39: with x = 15 the byte shifted is the flag, which is below 2. -/
theorem shiftLeftOne : Obligations.ShiftLeftOne := by
  refine ⟨decodesAs_of_family_lowNibble fun w hf hn => by simp [decodeWord, decodeFamily8, hf, hn],
    fun x y s => ⟨_, exec_shl x y s, fun hx => ⟨?_, ?_⟩, fun hx => ?_, s.getV_flag_setV_of_ne x _ _,
      s.flag_setV_frame x _ _⟩⟩
  · rw [State.getV_setV_self, State.getV_setV_of_ne _ _ _ _ hx, shiftLeft_one_toNat]
  · rw [s.getV_flag_setV _ _ hx, shiftOutLeft_toNat]
  · subst hx
    rw [State.getV_setV_self, State.getV_setV_self, shiftLeft_one_toNat, shiftOutLeft_toNat]
    omega

/-! ### Random (R171) -/

/-- What `Cxnn` does: the free byte of the current count of draws, masked (R171). -/
theorem exec_rnd (x : Reg) (nn : Byte) (s : State) :
    exec (.rnd x nn) s = .next (s.nextDraw.setV x (Config.randByte s.draws &&& nn)) := rfl

/-- Settles O40: one register is written, and with the mask 0 the byte written is 0 whatever is drawn. -/
theorem randomMasked : Obligations.RandomMasked := by
  refine ⟨decodesAs_of_family fun w h => by simp [decodeWord, h],
    fun x nn s => ⟨_, exec_rnd x nn s, s.nextDraw.getV_setV_self x _, fun hnn => ?_, s.nextDraw.getV_setV_of_ne x _,
      rfl, rfl⟩⟩
  rw [State.getV_setV_self, hnn]
  exact BitVec.and_zero

end Sys2Proof.Machine
end

section
/-! The memory instructions of spec/44_index_memory.md: `Fx33` (R183), `Fx55` (R184) and `Fx65` (R185), and the memory of
spec/20_memory.md (R59). -/

open Sys2Proof.Claims

namespace Sys2Proof

/-- Format `X`: the word of the row, and 256 for each register number (R72). -/
theorem formatX_toNat (f : BitVec 4) (x : Reg) (nn : Byte) :
    BitVec.toNat (w := 16) (f ++ regBits x ++ nn) = f.toNat * 4096 + nn.toNat + 256 * x.val := by
  rw [formatXNN_toNat]
  omega

end Sys2Proof

namespace Sys2Proof.Machine

/-! ### Decimal digits (R183) -/

/-- `Fx33` with its last address past memory (R53, R183). -/
theorem exec_ldBVx_of_outside {s : State} (x : Reg) (h : 4096 ≤ s.effAddr 2) :
    exec (.ldBVx x) s = .next (s.raise .outOfBounds (some (encodeWord (.ldBVx x))) (some (s.effAddr 2))) := by
  simp [exec, execLdBVx, (outsideMemory_iff _).mpr h]

/-- `Fx33` otherwise: the three digits are stored (R183). -/
theorem exec_ldBVx_of_inside {s : State} (x : Reg) (h : s.effAddr 2 < 4096) :
    exec (.ldBVx x) s =
      .next (((s.memWrite (s.effAddr 0) (bcdHundreds (s.getV x))).memWrite (s.effAddr 1) (bcdTens (s.getV x))).memWrite
        (s.effAddr 2) (bcdOnes (s.getV x))) := by
  simp [exec, execLdBVx, (outsideMemory_eq_false _).mpr h]

theorem bcdHundreds_toNat (b : Byte) : (bcdHundreds b).toNat = b.toNat / 100 := by
  rw [bcdHundreds, BitVec.toNat_ofNat]
  omega

theorem bcdTens_toNat (b : Byte) : (bcdTens b).toNat = b.toNat / 10 % 10 := by
  rw [bcdTens, BitVec.toNat_ofNat]
  omega

theorem bcdOnes_toNat (b : Byte) : (bcdOnes b).toNat = b.toNat % 10 := by
  rw [bcdOnes, BitVec.toNat_ofNat]
  omega

/-- Effective addresses of different offsets are different. -/
theorem State.effAddr_inj (s : State) {j k : Nat} : s.effAddr j = s.effAddr k ↔ j = k := by
  rw [State.effAddr_eq, State.effAddr_eq]
  omega

/-- A byte written reads back. -/
theorem State.memRead_memWrite_self (s : State) (a : Nat) (b : Byte) : (s.memWrite a b).memRead a = b := by
  rw [State.memRead_memWrite, if_pos rfl]

/-- A byte at another address is left alone. -/
theorem State.memRead_memWrite_of_ne (s : State) {a x : Nat} (b : Byte) (h : x ≠ a) :
    (s.memWrite a b).memRead x = s.memRead x := by
  rw [State.memRead_memWrite, if_neg h]

/-- Settles O42: the three addresses are different, so each digit reads back. -/
theorem storeDigits : Obligations.StoreDigits := by
  refine ⟨decodesAs_of_family_fieldNN fun w hf hn => by simp [decodeWord, decodeFamilyF, hf, hn],
    fun x s h => ⟨_, exec_ldBVx_of_inside x h, ?_, ?_, ?_, fun a h0 h1 h2 => ?_, rfl⟩, fun x s h => ?_⟩
  · rw [State.memRead_memWrite_of_ne _ _ (by simp [State.effAddr_inj]),
      State.memRead_memWrite_of_ne _ _ (by simp [State.effAddr_inj]), State.memRead_memWrite_self, bcdHundreds_toNat]
  · rw [State.memRead_memWrite_of_ne _ _ (by simp [State.effAddr_inj]), State.memRead_memWrite_self, bcdTens_toNat]
  · rw [State.memRead_memWrite_self, bcdOnes_toNat]
  · rw [State.memRead_memWrite_of_ne _ _ h2, State.memRead_memWrite_of_ne _ _ h1, State.memRead_memWrite_of_ne _ _ h0]
  · exact ⟨encodeWord (.ldBVx x), formatX_toNat 15 x 0x33, exec_ldBVx_of_outside x h⟩

/-! ### Register blocks (R184, R185) -/

/-- `Fx55` with its last address past memory (R53, R184). -/
theorem exec_ldMemVx_of_outside {s : State} (x : Reg) (h : 4096 ≤ s.effAddr x.val) :
    exec (.ldMemVx x) s = .next (s.raise .outOfBounds (some (encodeWord (.ldMemVx x))) (some (s.effAddr x.val))) := by
  simp [exec, execLdMemVx, (outsideMemory_iff _).mpr h]

/-- `Fx55` otherwise: the block is stored, then I moves past it (R184). -/
theorem exec_ldMemVx_of_inside {s : State} (x : Reg) (h : s.effAddr x.val < 4096) :
    exec (.ldMemVx x) s = .next ((s.storeRegs (regBlock x)).bumpIndex x) := by
  simp [exec, execLdMemVx, (outsideMemory_eq_false _).mpr h]

/-- `Fx65` with its last address past memory (R53, R185). -/
theorem exec_ldVxMem_of_outside {s : State} (x : Reg) (h : 4096 ≤ s.effAddr x.val) :
    exec (.ldVxMem x) s = .next (s.raise .outOfBounds (some (encodeWord (.ldVxMem x))) (some (s.effAddr x.val))) := by
  simp [exec, execLdVxMem, (outsideMemory_iff _).mpr h]

/-- `Fx65` otherwise: the block is loaded, then I moves past it (R185). -/
theorem exec_ldVxMem_of_inside {s : State} (x : Reg) (h : s.effAddr x.val < 4096) :
    exec (.ldVxMem x) s = .next ((s.loadRegs (regBlock x)).bumpIndex x) := by
  simp [exec, execLdVxMem, (outsideMemory_eq_false _).mpr h]

/-- The post-increment does not wrap when the block lies inside memory (R184, R185). -/
theorem State.bumpIndex_toNat {s : State} {x : Reg} (h : s.effAddr x.val < 4096) :
    (s.bumpIndex x).index.toNat = s.index.toNat + x.val + 1 := by
  rw [State.effAddr_eq] at h
  rw [State.bumpIndex_eq_setI, State.setI_index, BitVec.toNat_add, BitVec.toNat_ofNat]
  omega

/-- A block store moves neither I nor what is computed from it. -/
theorem State.storeRegs_index (s : State) (l : List Reg) : (s.storeRegs l).index = s.index := by
  rw [State.storeRegs_frame]

theorem State.loadRegs_index (s : State) (l : List Reg) : (s.loadRegs l).index = s.index := by
  rw [State.loadRegs_frame]

/-- Each register of a stored block reads back at its address (R184). -/
theorem State.memRead_storeRegs_regBlock (s : State) {x r : Reg} (h : r ≤ x) :
    (s.storeRegs (regBlock x)).memRead (s.effAddr r.val) = s.getV r :=
  (State.memRead_storeRegs (regBlock x) s _).1 r ((mem_regBlock x r).mpr h) rfl

/-- An address outside a stored block is left alone (R184). -/
theorem State.memRead_storeRegs_of_ne (s : State) {x : Reg} {a : Nat} (h : ∀ r : Reg, r ≤ x → a ≠ s.effAddr r.val) :
    (s.storeRegs (regBlock x)).memRead a = s.memRead a :=
  (State.memRead_storeRegs (regBlock x) s a).2 fun r hr => h r ((mem_regBlock x r).mp hr)

/-- Each register of a loaded block holds the byte at its address (R185). -/
theorem State.getV_loadRegs_regBlock (s : State) {x r : Reg} (h : r ≤ x) :
    (s.loadRegs (regBlock x)).getV r = s.memRead (s.effAddr r.val) := by
  rw [State.getV_loadRegs, if_pos ((mem_regBlock x r).mpr h)]

/-- A register past a loaded block is left alone (R185). -/
theorem State.getV_loadRegs_of_lt (s : State) {x r : Reg} (h : x < r) :
    (s.loadRegs (regBlock x)).getV r = s.getV r := by
  rw [State.getV_loadRegs, if_neg fun hr => absurd ((mem_regBlock x r).mp hr) (not_le.mpr h)]

/-- Settles O43: the block store and its frame, and then a write of I. -/
theorem storeBlock : Obligations.StoreBlock := by
  refine ⟨decodesAs_of_family_fieldNN fun w hf hn => by simp [decodeWord, decodeFamilyF, hf, hn],
    fun x s h => ⟨_, exec_ldMemVx_of_inside x h, fun r hr => ?_, fun a ha => ?_, ?_, ?_⟩, fun x s h => ?_⟩
  · exact s.memRead_storeRegs_regBlock hr
  · exact s.memRead_storeRegs_of_ne ha
  · rw [State.bumpIndex_toNat, State.storeRegs_index]
    rwa [State.effAddr_eq, State.storeRegs_index]
  · rw [State.storeRegs_frame]
    rfl
  · exact ⟨encodeWord (.ldMemVx x), formatX_toNat 15 x 0x55, exec_ldMemVx_of_outside x h⟩

/-- Settles O44: the block load and its frame, and then a write of I. -/
theorem loadBlock : Obligations.LoadBlock := by
  refine ⟨decodesAs_of_family_fieldNN fun w hf hn => by simp [decodeWord, decodeFamilyF, hf, hn],
    fun x s h => ⟨_, exec_ldVxMem_of_inside x h, fun r hr => ?_, fun r hr => ?_, ?_, ?_⟩, fun x s h => ?_⟩
  · exact s.getV_loadRegs_regBlock hr
  · exact s.getV_loadRegs_of_lt hr
  · rw [State.bumpIndex_toNat, State.loadRegs_index]
    rwa [State.effAddr_eq, State.loadRegs_index]
  · rw [State.loadRegs_frame]
    rfl
  · exact ⟨encodeWord (.ldVxMem x), formatX_toNat 15 x 0x65, exec_ldVxMem_of_outside x h⟩

/-- Settles O45: the load reads at the addresses of the store, where the stored registers stand. -/
theorem storeThenLoadRestores : Obligations.StoreThenLoadRestores := by
  intro x s between h
  refine ⟨_, _, exec_ldMemVx_of_inside x h, exec_ldVxMem_of_inside x h, fun r hr => ?_⟩
  rw [State.bumpIndex_eq_setI, State.getV_setI, State.getV_loadRegs_regBlock _ hr]
  exact s.memRead_storeRegs_regBlock hr

/-- Settles O46: the fetch after the store reads the two addresses where V[r] and V[q] were put. -/
theorem storedCodeIsFetched : Obligations.StoredCodeIsFetched := by
  intro x r q s hq hqx h hpc
  have hqx' : q.val ≤ x.val := hqx
  have hrx : r ≤ x := Fin.le_def.mpr (by omega)
  have hpc' : s.pc.toNat + 1 = s.effAddr q.val := by
    rw [hpc, State.effAddr_eq, State.effAddr_eq, hq, Nat.add_assoc]
  refine ⟨_, exec_ldMemVx_of_inside x h, ?_⟩
  have hstay : ((s.storeRegs (regBlock x)).bumpIndex x).pc = s.pc := by rw [State.storeRegs_frame]; rfl
  rw [State.fetchWord_some, hstay, hpc', hpc, State.bumpIndex_eq_setI, State.memRead_setI, State.memRead_setI,
    s.memRead_storeRegs_regBlock hrx, s.memRead_storeRegs_regBlock hqx]
  rw [hstay, hpc', State.effAddr_eq]
  rw [State.effAddr_eq] at h
  omega

/-! ### Memory as data (R59) -/

/-- Settles O47, by induction on the writes from the last one back: the last write is the first that the search meets. -/
theorem readsSeeLastWrite : Obligations.ReadsSeeLastWrite := by
  intro font writes m a
  induction writes using List.reverseRecOn with
  | nil => rfl
  | append_singleton writes c ih =>
    rw [List.foldl_append, List.foldl_cons, List.foldl_nil, Memory.read_write, ih, List.reverse_append,
      List.reverse_singleton, List.singleton_append, List.find?_cons]
    by_cases hc : c.1 = a
    · rw [if_pos hc.symm, beq_iff_eq.mpr hc]
    · rw [if_neg (Ne.symm hc), beq_eq_false_iff_ne.mpr hc]

/-- Settles O48: equal reads give equal entries, and a list of rising addresses is fixed by its entries. -/
theorem canonicalMemoryUnique : Obligations.CanonicalMemoryUnique := by
  intro font m n hm hn h
  have hmem : ∀ c : Host.Cell, c ∈ m ↔ c ∈ n := fun c => by
    rw [Memory.mem_iff_read hm, Memory.mem_iff_read hn, h]
  have hnodup {l : Memory} (hl : l.wf font) : l.Nodup := hl.1.imp fun hlt he => absurd (he ▸ hlt) (lt_irrefl _)
  exact ((List.perm_ext_iff_of_nodup (hnodup hm) (hnodup hn)).mpr hmem).eq_of_pairwise
    (fun c d _ _ hcd hdc => absurd (hcd.trans hdc) (lt_irrefl _)) hm.1 hn.1

end Sys2Proof.Machine
end

section
/-! The keypad instructions of spec/45_keys_timers.md: `Ex9E` and `ExA1` (R200 to R202) and `Fx0A` (R206). -/

open Sys2Proof.Claims

namespace Sys2Proof.Machine

/-! ### Skips on a key (R200 to R202) -/

/-- `Ex9E` with an index from 16 up (R202). -/
theorem exec_skp_of_bad {s : State} (x : Reg) (h : 16 ≤ (s.getV x).toNat) :
    exec (.skp x) s = .next (s.raise .outOfBounds (some (encodeWord (.skp x))) (some (s.getV x).toNat)) := by
  simp [exec, execSkp, (keyIndex_none _).mpr h]

/-- `Ex9E` on key k (R200). -/
theorem exec_skp_of_key {s : State} (x : Reg) {k : Fin 16} (h : (s.getV x).toNat = k.val) :
    exec (.skp x) s = .next (s.skipIf (s.key k)) := by
  simp [exec, execSkp, (keyIndex_some _ k).mpr h]

/-- `ExA1` with an index from 16 up (R202). -/
theorem exec_sknp_of_bad {s : State} (x : Reg) (h : 16 ≤ (s.getV x).toNat) :
    exec (.sknp x) s = .next (s.raise .outOfBounds (some (encodeWord (.sknp x))) (some (s.getV x).toNat)) := by
  simp [exec, execSknp, (keyIndex_none _).mpr h]

/-- `ExA1` on key k (R201). -/
theorem exec_sknp_of_key {s : State} (x : Reg) {k : Fin 16} (h : (s.getV x).toNat = k.val) :
    exec (.sknp x) s = .next (s.skipIf (!s.key k)) := by
  simp [exec, execSknp, (keyIndex_some _ k).mpr h]

/-- Settles O49: a skip on the key, or on its negation, and an index from 16 up is the error of both. -/
theorem skipOnKey : Obligations.SkipOnKey := by
  refine ⟨decodesAs_of_family_fieldNN fun w hf hn => by simp [decodeWord, decodeFamilyE, hf, hn],
    decodesAs_of_family_fieldNN fun w hf hn => by simp [decodeWord, decodeFamilyE, hf, hn],
    fun x s k hk => ⟨?_, ?_⟩, fun x s h => ⟨encodeWord (.skp x), encodeWord (.sknp x), formatX_toNat 14 x 0x9E,
      formatX_toNat 14 x 0xA1, exec_skp_of_bad x h, exec_sknp_of_bad x h⟩⟩
  · rw [exec_skp_of_key x hk, State.skipIf_eq]
    rfl
  · rw [exec_sknp_of_key x hk, State.skipIf_eq]
    cases s.key k <;> rfl

/-! ### The key wait (R206) -/

/-- `Fx0A` with no key pressed goes back to its own address (R206). -/
theorem exec_ldVxK_of_none {s : State} (x : Reg) (h : ∀ k, s.key k = false) :
    exec (.ldVxK x) s = .next (s.setPc (s.pc - 2)) := by
  simp [exec, execLdVxK, s.drawKey_none.mpr h]

/-- `Fx0A` with a drawn key stores its index (R206). -/
theorem exec_ldVxK_of_some {s u : State} (x : Reg) {k : Fin 16} (h : s.drawKey = some (k, u)) :
    exec (.ldVxK x) s = .next (u.setV x (BitVec.ofNat 8 k.val)) := by
  simp [exec, execLdVxK, h]

theorem State.exists_drawKey {s : State} (h : ∃ k, s.key k = true) : ∃ k u, s.drawKey = some (k, u) := by
  cases hd : s.drawKey with
  | none =>
    obtain ⟨k, hk⟩ := h
    exact absurd hk (by simp [s.drawKey_none.mp hd k])
  | some p => exact ⟨p.1, p.2, rfl⟩

/-- A key index fits in a byte. -/
theorem ofNat_key_toNat (k : Fin 16) : (BitVec.ofNat 8 k.val).toNat = k.val := by
  rw [BitVec.toNat_ofNat]
  omega

/-- Settles O50: what a draw of a key gives is `State.drawKey_some`. -/
theorem waitForKey : Obligations.WaitForKey := by
  refine ⟨decodesAs_of_family_fieldNN fun w hf hn => by simp [decodeWord, decodeFamilyF, hf, hn],
    fun x s h => exec_ldVxK_of_none x h, fun x s h => ?_⟩
  obtain ⟨k, u, hd⟩ := State.exists_drawKey h
  obtain ⟨hk, hframe⟩ := State.drawKey_some hd
  refine ⟨_, k, exec_ldVxK_of_some x hd, hk, ?_, fun r hr => ?_, ?_⟩
  · rw [State.getV_setV_self, ofNat_key_toNat]
  · rw [State.getV_setV_of_ne _ _ _ _ hr, hframe]
    rfl
  · rw [hframe]
    rfl

end Sys2Proof.Machine
end

section
/-! The sprite draw of spec/41_display.md: `Dxyn` (R110, R112), and the same draw twice (R113). -/

open Sys2Proof.Claims

namespace Sys2Proof.Machine

/-- What `Dxyn` does: the coordinates are those of the registers before VF is reset (R112, decision D7). -/
theorem exec_drw (x y : Reg) (n : Nat) (s : State) :
    exec (.drw x y n) s =
      .next (((s.setV regF 0).drawRows (s.getV x).toNat (s.getV y).toNat 0 n).setChanged true) := rfl

/-- The pixels the claims call covered are those the rows of the draw hit. -/
theorem covers_iff_spriteHits (s : State) (x y : Reg) (n : Nat) (px : Fin 64) (py : Fin 32) :
    Covers s x y n px py ↔ SpriteHits (s.setV regF 0) (s.getV x).toNat (s.getV y).toNat 0 n px py := by
  constructor
  · rintro ⟨r, b, hr, hb, hmem, hbit, hx, hy⟩
    exact ⟨r, by omega, by omega, hmem, Fin.ext hy.symm, b, by omega, by omega, hbit, Fin.ext hx.symm⟩
  · rintro ⟨r, -, hr, hmem, hy, b, -, hb, hbit, hx⟩
    exact ⟨r, b, by omega, by omega, hmem, hbit, (congrArg Fin.val hx).symm, (congrArg Fin.val hy).symm⟩

/-- Settles O24: the laws of the draw engine for at most 15 rows, with VF reset before it starts. -/
theorem drawSprite : Obligations.DrawSprite := by
  refine ⟨decodesAs_of_family fun w h => by simp [decodeWord, h], fun x y n s hwf => ?_⟩
  have hn : n ≤ 32 := Nat.le_of_lt (Nat.lt_trans ((wellFormed_drw x y n).mp hwf) (by decide))
  have hpixel := State.pixel_drawRows (s.getV x).toNat (s.getV y).toNat n (s.setV regF 0) 0 hn
  have hflag := State.getV_drawRows (s.getV x).toNat (s.getV y).toNat n (s.setV regF 0) 0 hn regF
  simp only [← covers_iff_spriteHits, State.pixel_setV, true_and] at hpixel hflag
  refine ⟨_, exec_drw x y n s, fun px py => (hpixel px py).1, fun px py => (hpixel px py).2, hflag.1,
    fun hoff => ?_, fun r hr => ?_, rfl, ?_, ?_⟩
  · rw [State.getV_setChanged, hflag.2 hoff, State.getV_setV_self]
  · rw [State.getV_setChanged, State.getV_drawRows_ne _ _ _ _ _ hr, State.getV_setV_of_ne _ _ _ _ hr]
  · exact State.drawRows_result (s.getV x).toNat (s.getV y).toNat n (s.setV regF 0) 0
  · rw [State.drawRows_frame]
    rfl

/-- What a draw covers depends on I, on memory and on the two coordinate registers only (R110). -/
theorem covers_congr {s t : State} {x y : Reg} (hi : t.index = s.index) (hm : ∀ a, t.memRead a = s.memRead a)
    (hx : t.getV x = s.getV x) (hy : t.getV y = s.getV y) (n : Nat) (px : Fin 64) (py : Fin 32) :
    Covers t x y n px py ↔ Covers s x y n px py := by
  simp only [Covers, hi, hm, hx, hy]

/-- Settles O25: the first draw leaves everything the second one's coverage depends on, so the second flips the same pixels back, and
finds on exactly the covered pixels that were off. -/
theorem drawTwiceRestores : Obligations.DrawTwiceRestores := by
  intro x y n s hwf hx hy
  obtain ⟨-, hdraw⟩ := drawSprite
  obtain ⟨t, ht, htflip, htkeep, -, -, htv, -, -, htframe⟩ := hdraw x y n s hwf
  obtain ⟨u, hu, huflip, hukeep, huon, huoff, -⟩ := hdraw x y n t hwf
  have hcovers : ∀ px py, Covers t x y n px py ↔ Covers s x y n px py :=
    covers_congr (by rw [htframe]) (fun a => by rw [htframe]; rfl) (htv x hx) (htv y hy) n
  have hhit : (∃ px py, Covers t x y n px py ∧ t.pixel px py = true) ↔
      ∃ px py, Covers s x y n px py ∧ s.pixel px py = false := by
    refine exists_congr fun px => exists_congr fun py => ?_
    rw [hcovers]
    refine and_congr_right fun hc => ?_
    rw [htflip px py hc, Bool.not_eq_true']
  rw [hhit] at huon huoff
  refine ⟨t, u, ht, hu, State.disp_ext fun px py => ?_, ⟨fun h => ?_, huon⟩, ⟨fun h px py hc => ?_, fun h => huoff ?_⟩⟩
  · by_cases hc : Covers s x y n px py
    · rw [huflip px py ((hcovers px py).mpr hc), htflip px py hc, Bool.not_not]
    · rw [hukeep px py fun h => hc ((hcovers px py).mp h), htkeep px py hc]
  · by_contra hoff
    exact absurd ((huoff hoff).symm.trans h) (by decide)
  · by_contra hoff
    exact absurd ((huon ⟨px, py, hc, eq_false_of_ne_true hoff⟩).symm.trans h) (by decide)
  · rintro ⟨px, py, hc, hoff⟩
    exact absurd (h px py hc) (by simp [hoff])

end Sys2Proof.Machine
end

section
/-! The decoder against the opcode table of spec/30_encoding.md (R74, R75). -/

open Sys2Proof.Claims

namespace Sys2Proof.Machine

/-- A row whose words decode to instructions of its mnemonic. -/
def RowDecodes (r : OpcodeRow) : Prop :=
  ∀ w : Word, r.Matches w → ∃ i, decodeWord w = some i ∧ i.mnemonic = r.mnemonic

theorem rowDecodes_of_decodesAs {mask pattern : Word} {build : Word → Instr} (mnemonic : String)
    (h : DecodesAs mask pattern build) (hb : ∀ w, (build w).mnemonic = mnemonic) :
    RowDecodes ⟨mnemonic, mask, pattern⟩ :=
  fun w hw => ⟨build w, h w hw, hb w⟩

/-- A row whose mask fixes all 16 bits has one word. -/
theorem rowDecodes_of_decodeWord {pattern : Word} {i : Instr} (h : decodeWord pattern = some i) :
    RowDecodes ⟨i.mnemonic, 0xFFFF, pattern⟩ := by
  intro w hw
  have hword : w = pattern := (BitVec.and_allOnes (x := w)).symm.trans hw
  exact ⟨i, hword ▸ h, rfl⟩

/-- Every word that matches a row of the table decodes to an instruction of that row's mnemonic: the decoding clauses of the
instructions' own statements, row by row. -/
theorem rowDecodes_of_mem {r : OpcodeRow} (h : r ∈ opcodeTable) : RowDecodes r := by
  obtain ⟨seImm, sneImm, -⟩ := skipOnImmediate
  obtain ⟨seReg, sneReg, -⟩ := skipOnRegister
  obtain ⟨ldImm, addImm, -⟩ := loadAndAddImmediate
  obtain ⟨orReg, andReg, xorReg, -⟩ := bitwiseLogic
  obtain ⟨ldI, addIVx, ldFVx, -⟩ := indexWrites
  obtain ⟨skp, sknp, -⟩ := skipOnKey
  obtain ⟨ldVxDt, ldDtVx, ldStVx, -⟩ := timerMoves
  revert r
  simp only [opcodeTable, List.cons_append, List.nil_append, List.forall_mem_cons]
  exact ⟨rowDecodes_of_decodeWord clearScreen.1, rowDecodes_of_decodeWord returnPops.1,
    rowDecodes_of_decodesAs _ jump.1 fun _ => rfl, rowDecodes_of_decodesAs _ callPushes.1 fun _ => rfl,
    rowDecodes_of_decodesAs _ seImm fun _ => rfl, rowDecodes_of_decodesAs _ sneImm fun _ => rfl,
    rowDecodes_of_decodesAs _ seReg fun _ => rfl, rowDecodes_of_decodesAs _ ldImm fun _ => rfl,
    rowDecodes_of_decodesAs _ addImm fun _ => rfl, rowDecodes_of_decodesAs _ copyRegister.1 fun _ => rfl,
    rowDecodes_of_decodesAs _ orReg fun _ => rfl, rowDecodes_of_decodesAs _ andReg fun _ => rfl,
    rowDecodes_of_decodesAs _ xorReg fun _ => rfl, rowDecodes_of_decodesAs _ addWithCarry.1 fun _ => rfl,
    rowDecodes_of_decodesAs _ subtractNoBorrow.1 fun _ => rfl, rowDecodes_of_decodesAs _ shiftRightOne.1 fun _ => rfl,
    rowDecodes_of_decodesAs _ subtractReversed.1 fun _ => rfl, rowDecodes_of_decodesAs _ shiftLeftOne.1 fun _ => rfl,
    rowDecodes_of_decodesAs _ sneReg fun _ => rfl, rowDecodes_of_decodesAs _ ldI fun _ => rfl,
    rowDecodes_of_decodesAs _ jumpPlusV0.1 fun _ => rfl, rowDecodes_of_decodesAs _ randomMasked.1 fun _ => rfl,
    rowDecodes_of_decodesAs _ drawSprite.1 fun _ => rfl, rowDecodes_of_decodesAs _ skp fun _ => rfl,
    rowDecodes_of_decodesAs _ sknp fun _ => rfl, rowDecodes_of_decodesAs _ ldVxDt fun _ => rfl,
    rowDecodes_of_decodesAs _ waitForKey.1 fun _ => rfl, rowDecodes_of_decodesAs _ ldDtVx fun _ => rfl,
    rowDecodes_of_decodesAs _ ldStVx fun _ => rfl, rowDecodes_of_decodesAs _ addIVx fun _ => rfl,
    rowDecodes_of_decodesAs _ ldFVx fun _ => rfl, rowDecodes_of_decodesAs _ storeDigits.1 fun _ => rfl,
    rowDecodes_of_decodesAs _ storeBlock.1 fun _ => rfl, rowDecodes_of_decodesAs _ loadBlock.1 fun _ => rfl, nofun⟩

/-- Every instruction's word matches the row of its mnemonic: the family of Laws/PerInstr, for all 34. -/
theorem rowPattern (i : Instr) : Laws.RowPattern.Statement i := by
  cases i with
  | cls => exact Laws.RowPattern.cls
  | ret => exact Laws.RowPattern.ret
  | jp nnn => exact Laws.RowPattern.jp nnn
  | call nnn => exact Laws.RowPattern.call nnn
  | seImm x nn => exact Laws.RowPattern.seImm x nn
  | sneImm x nn => exact Laws.RowPattern.sneImm x nn
  | seReg x y => exact Laws.RowPattern.seReg x y
  | ldImm x nn => exact Laws.RowPattern.ldImm x nn
  | addImm x nn => exact Laws.RowPattern.addImm x nn
  | ldReg x y => exact Laws.RowPattern.ldReg x y
  | orReg x y => exact Laws.RowPattern.orReg x y
  | andReg x y => exact Laws.RowPattern.andReg x y
  | xorReg x y => exact Laws.RowPattern.xorReg x y
  | addReg x y => exact Laws.RowPattern.addReg x y
  | sub x y => exact Laws.RowPattern.sub x y
  | shr x y => exact Laws.RowPattern.shr x y
  | subn x y => exact Laws.RowPattern.subn x y
  | shl x y => exact Laws.RowPattern.shl x y
  | sneReg x y => exact Laws.RowPattern.sneReg x y
  | ldI nnn => exact Laws.RowPattern.ldI nnn
  | jpV0 nnn => exact Laws.RowPattern.jpV0 nnn
  | rnd x nn => exact Laws.RowPattern.rnd x nn
  | drw x y n => exact Laws.RowPattern.drw x y n
  | skp x => exact Laws.RowPattern.skp x
  | sknp x => exact Laws.RowPattern.sknp x
  | ldVxDt x => exact Laws.RowPattern.ldVxDt x
  | ldVxK x => exact Laws.RowPattern.ldVxK x
  | ldDtVx x => exact Laws.RowPattern.ldDtVx x
  | ldStVx x => exact Laws.RowPattern.ldStVx x
  | addIVx x => exact Laws.RowPattern.addIVx x
  | ldFVx x => exact Laws.RowPattern.ldFVx x
  | ldBVx x => exact Laws.RowPattern.ldBVx x
  | ldMemVx x => exact Laws.RowPattern.ldMemVx x
  | ldVxMem x => exact Laws.RowPattern.ldVxMem x

/-- No two rows of the table share a mnemonic. -/
theorem opcodeTable_mnemonic_inj : ∀ r ∈ opcodeTable, ∀ q ∈ opcodeTable, r.mnemonic = q.mnemonic → r = q := by decide

/-- Settles O3: a decoded word is the encoding of its instruction, which has a row; a word that matches a row decodes; and the mnemonic
of what it decodes to names the row. -/
theorem decoderFollowsOpcodeTable : Obligations.DecoderFollowsOpcodeTable := by
  refine fun w => ⟨fun i hi => ?_, fun hnone r hr hm => ?_, fun r hr q hq hrm hqm => ?_⟩
  · obtain ⟨r, hr, hmnemonic, hm⟩ := rowPattern i
    exact ⟨r, hr, encodeWord_of_decodeWord hi ▸ hm, hmnemonic⟩
  · obtain ⟨i, hi, -⟩ := rowDecodes_of_mem hr w hm
    exact absurd (hnone.symm.trans hi) nofun
  · obtain ⟨i, hi, hri⟩ := rowDecodes_of_mem hr w hrm
    obtain ⟨j, hj, hqj⟩ := rowDecodes_of_mem hq w hqm
    obtain rfl := Option.some.inj (hi.symm.trans hj)
    exact opcodeTable_mnemonic_inj r hr q hq (hri.symm.trans hqj)

end Sys2Proof.Machine
end

section
/-! What an instruction and a step can do (spec/40_step.md): the hard errors (R96), what is done when there is none, the diagnostics
(R97), PC (R101), and what is left unchanged (R94). -/

open Sys2Proof.Claims

namespace Sys2Proof.Machine

/-! ### The two ways an instruction can end -/

/-- The hard error of an instruction on the state after the default advance, and the address it reports (R96). -/
def hardErrorAt (i : Instr) (s : State) : Option (ErrKind × Option Nat) :=
  match i with
  | .ret => if s.sp = 0 then some (.stackUnderflow, none) else none
  | .call _ => if s.sp = 16 then some (.stackOverflow, none) else none
  | .ldBVx _ => if 4096 ≤ s.effAddr 2 then some (.outOfBounds, some (s.effAddr 2)) else none
  | .ldMemVx x | .ldVxMem x => if 4096 ≤ s.effAddr x.val then some (.outOfBounds, some (s.effAddr x.val)) else none
  | .skp x | .sknp x => if 16 ≤ (s.getV x).toNat then some (.outOfBounds, some (s.getV x).toNat) else none
  | _ => none

/-- What an instruction does when it raises no hard error. Those whose meaning has no branch do what `exec` says. -/
def Effect (i : Instr) (s t : State) : Prop :=
  match i with
  | .ret => ∃ w u, s.pop = some (w, u) ∧ t = u.setPc w
  | .call nnn => ∃ u, s.push s.pc = some u ∧ t = u.setPc (zextAddr nnn)
  | .skp x => ∃ k : Fin 16, (s.getV x).toNat = k.val ∧ t = s.skipIf (s.key k)
  | .sknp x => ∃ k : Fin 16, (s.getV x).toNat = k.val ∧ t = s.skipIf (!s.key k)
  | .ldVxK x =>
    (∀ k, s.key k = false) ∧ t = s.setPc (s.pc - 2) ∨
      ∃ k u, s.drawKey = some (k, u) ∧ t = u.setV x (BitVec.ofNat 8 k.val)
  | .ldBVx x =>
    s.effAddr 2 < 4096 ∧
      t = ((s.memWrite (s.effAddr 0) (bcdHundreds (s.getV x))).memWrite (s.effAddr 1) (bcdTens (s.getV x))).memWrite
        (s.effAddr 2) (bcdOnes (s.getV x))
  | .ldMemVx x => s.effAddr x.val < 4096 ∧ t = (s.storeRegs (regBlock x)).bumpIndex x
  | .ldVxMem x => s.effAddr x.val < 4096 ∧ t = (s.loadRegs (regBlock x)).bumpIndex x
  | i => exec i s = .next t

/-- A hard error changes the result and nothing else. -/
theorem exec_of_hardErrorAt {i : Instr} {s : State} {k : ErrKind} {a : Option Nat} (h : hardErrorAt i s = some (k, a)) :
    exec i s = .next (s.raise k (some (encodeWord i)) a) := by
  cases i with
  | ret =>
    obtain ⟨hbad, ⟨⟩⟩ := Option.ite_none_right_eq_some.mp h
    exact exec_ret_of_empty hbad
  | call nnn =>
    obtain ⟨hbad, ⟨⟩⟩ := Option.ite_none_right_eq_some.mp h
    exact exec_call_of_full nnn hbad
  | ldBVx x =>
    obtain ⟨hbad, ⟨⟩⟩ := Option.ite_none_right_eq_some.mp h
    exact exec_ldBVx_of_outside x hbad
  | ldMemVx x =>
    obtain ⟨hbad, ⟨⟩⟩ := Option.ite_none_right_eq_some.mp h
    exact exec_ldMemVx_of_outside x hbad
  | ldVxMem x =>
    obtain ⟨hbad, ⟨⟩⟩ := Option.ite_none_right_eq_some.mp h
    exact exec_ldVxMem_of_outside x hbad
  | skp x =>
    obtain ⟨hbad, ⟨⟩⟩ := Option.ite_none_right_eq_some.mp h
    exact exec_skp_of_bad x hbad
  | sknp x =>
    obtain ⟨hbad, ⟨⟩⟩ := Option.ite_none_right_eq_some.mp h
    exact exec_sknp_of_bad x hbad
  | _ => cases h

/-- With no hard error an instruction answers a next state, by its effect. -/
theorem exec_of_no_hardErrorAt {i : Instr} {s : State} (h : hardErrorAt i s = none) :
    ∃ t, exec i s = .next t ∧ Effect i s t := by
  cases i with
  | ret =>
    obtain ⟨w, u, hp⟩ := State.exists_pop (ite_some_eq_none.mp h).1
    exact ⟨_, exec_ret_of_pop hp, w, u, hp, rfl⟩
  | call nnn =>
    obtain ⟨u, hp⟩ := State.exists_push s.pc (ite_some_eq_none.mp h).1
    exact ⟨_, exec_call_of_push nnn hp, u, hp, rfl⟩
  | ldBVx x =>
    have hin := not_le.mp (ite_some_eq_none.mp h).1
    exact ⟨_, exec_ldBVx_of_inside x hin, hin, rfl⟩
  | ldMemVx x =>
    have hin := not_le.mp (ite_some_eq_none.mp h).1
    exact ⟨_, exec_ldMemVx_of_inside x hin, hin, rfl⟩
  | ldVxMem x =>
    have hin := not_le.mp (ite_some_eq_none.mp h).1
    exact ⟨_, exec_ldVxMem_of_inside x hin, hin, rfl⟩
  | skp x =>
    have hk := not_le.mp (ite_some_eq_none.mp h).1
    exact ⟨_, exec_skp_of_key x (k := ⟨_, hk⟩) rfl, ⟨_, hk⟩, rfl, rfl⟩
  | sknp x =>
    have hk := not_le.mp (ite_some_eq_none.mp h).1
    exact ⟨_, exec_sknp_of_key x (k := ⟨_, hk⟩) rfl, ⟨_, hk⟩, rfl, rfl⟩
  | ldVxK x =>
    cases hd : s.drawKey with
    | none =>
      have hno := s.drawKey_none.mp hd
      exact ⟨_, exec_ldVxK_of_none x hno, .inl ⟨hno, rfl⟩⟩
    | some p => exact ⟨_, exec_ldVxK_of_some x hd, .inr ⟨p.1, p.2, hd, rfl⟩⟩
  | _ => exact ⟨_, rfl, rfl⟩

/-- What an instruction can do: raise its hard error, or have its effect. -/
theorem exec_cases {i : Instr} {s t : State} (h : exec i s = .next t) :
    (∃ k a, hardErrorAt i s = some (k, a) ∧ t = s.raise k (some (encodeWord i)) a) ∨
      (hardErrorAt i s = none ∧ Effect i s t) := by
  cases he : hardErrorAt i s with
  | none =>
    obtain ⟨u, hu, heff⟩ := exec_of_no_hardErrorAt he
    obtain rfl := Host.Outcome.next.inj (hu.symm.trans h)
    exact .inr ⟨rfl, heff⟩
  | some e => exact .inl ⟨e.1, e.2, rfl, (Host.Outcome.next.inj ((exec_of_hardErrorAt he).symm.trans h)).symm⟩

/-- An instruction always answers a next state (R96). -/
theorem exists_exec_eq_next (i : Instr) (s : State) : ∃ t, exec i s = .next t := by
  cases he : hardErrorAt i s with
  | none =>
    obtain ⟨t, ht, -⟩ := exec_of_no_hardErrorAt he
    exact ⟨t, ht⟩
  | some e => exact ⟨_, exec_of_hardErrorAt he⟩

/-- Settles O9: a failed fetch, an unknown opcode and every instruction answer a next state. -/
theorem everyStepAnswersNext : Obligations.EveryStepAnswersNext := by
  intro s
  rcases s.fetch_cases with ⟨w, hw, -⟩ | ⟨hw, -⟩
  · cases hi : decodeWord w with
    | none => exact ⟨_, step_unknown hw hi⟩
    | some i => rw [step_decoded hw hi]; exact exists_exec_eq_next i s.advance
  · exact ⟨_, step_fetch_none hw⟩

/-! ### Hard errors and diagnostics of a step (R96, R97) -/

/-- The claims' table of hard errors, for a word that decodes. -/
theorem hardErrorOf_decoded {s : State} {w : Word} {i : Instr} (hw : s.fetchWord = some w) (hi : decodeWord w = some i) :
    hardErrorOf s = (hardErrorAt i s.advance).map fun e => (e.1, ⟨some w, e.2⟩) := by
  simp only [hardErrorOf, hw, hi]
  cases i with
  | ret | call | ldBVx | ldMemVx | ldVxMem | skp | sknp =>
    simp only [hardErrorAt, Option.map_if]
    rfl
  | _ => rfl

/-- The diagnostic an instruction records when it raises no hard error: a sprite row past memory (R112). -/
def diagnosticAt (i : Instr) (s : State) : Option Diag :=
  match i with
  | .drw _ _ n =>
    if 0 < n ∧ 4096 < s.index.toNat + n then some (.outOfBounds (max s.index.toNat 4096)) else none
  | _ => none

/-- The claims' table of diagnostics, for a word that decodes. -/
theorem diagnosticOf_decoded {s : State} {w : Word} {i : Instr} (hw : s.fetchWord = some w) (hi : decodeWord w = some i) :
    diagnosticOf s = diagnosticAt i s.advance := by
  simp only [diagnosticOf, hw, hi]
  cases i <;> rfl

/-- An effect keeps the result begun as `Ok(none)`, but for the diagnostic of a draw (R97). -/
theorem Effect.result_eq {i : Instr} {s t : State} (h : Effect i s t) (hs : s.result = .ok none) :
    t.result = .ok (diagnosticAt i s) := by
  cases i with
  | drw x y n =>
    obtain rfl := Host.Outcome.next.inj h
    simp only [State.setChanged_result, State.drawRows_result, State.setV_index, State.setV_result, Nat.add_zero, hs,
      diagnosticAt]
    split <;> rfl
  | ret =>
    obtain ⟨w, u, hp, rfl⟩ := h
    rw [(State.pop_some hp).1]
    exact hs
  | call nnn =>
    obtain ⟨u, hp, rfl⟩ := h
    rw [(State.push_some hp).1]
    exact hs
  | seImm | sneImm | seReg | sneReg =>
    obtain rfl := Host.Outcome.next.inj h
    rw [State.skipIf_eq]
    exact hs
  | skp x | sknp x =>
    obtain ⟨k, -, rfl⟩ := h
    rw [State.skipIf_eq]
    exact hs
  | ldVxK x =>
    obtain ⟨-, rfl⟩ | ⟨k, u, hd, rfl⟩ := h
    · exact hs
    · rw [(State.drawKey_some hd).2]
      exact hs
  | ldBVx x =>
    obtain ⟨-, rfl⟩ := h
    exact hs
  | ldMemVx x =>
    obtain ⟨-, rfl⟩ := h
    rw [State.storeRegs_frame]
    exact hs
  | ldVxMem x =>
    obtain ⟨-, rfl⟩ := h
    rw [State.loadRegs_frame]
    exact hs
  | _ =>
    obtain rfl := Host.Outcome.next.inj h
    exact hs

/-- A step with a hard error: PC advances unless the fetch failed, and the result is that error (R91, R96). -/
theorem step_of_hardErrorOf {s : State} {k : ErrKind} {info : Info} (h : hardErrorOf s = some (k, info)) :
    step s = .next { s with pc := if s.pc.toNat + 1 < 4096 then s.pc + 2 else s.pc, result := .err k info } := by
  rcases s.fetch_cases with ⟨w, hw, hpc⟩ | ⟨hw, hpc⟩
  · rw [if_pos hpc]
    cases hi : decodeWord w with
    | none => simp [hardErrorOf, hw, hi] at h
    | some i =>
      rw [hardErrorOf_decoded hw hi] at h
      obtain ⟨⟨k, a⟩, he, heq⟩ := Option.map_eq_some_iff.mp h
      cases heq
      rw [step_decoded hw hi, exec_of_hardErrorAt he, encodeWord_of_decodeWord hi]
      rfl
  · obtain ⟨rfl, rfl⟩ : ErrKind.outOfBounds = k ∧ ⟨none, some s.pc.toNat⟩ = info := by simpa [hardErrorOf, hw] using h
    rw [if_neg (not_lt.mpr hpc), step_fetch_none hw]
    rfl

/-- A step with no hard error returns `Ok` with the diagnostic of the claims' table (R97, R98). -/
theorem step_result_of_no_hardErrorOf {s t : State} (h : hardErrorOf s = none) (ht : step s = .next t) :
    t.result = .ok (diagnosticOf s) := by
  rcases s.fetch_cases with ⟨w, hw, -⟩ | ⟨hw, -⟩
  · cases hi : decodeWord w with
    | none =>
      obtain rfl := Host.Outcome.next.inj ((step_unknown hw hi).symm.trans ht)
      simp [diagnosticOf, hw, hi]
    | some i =>
      rw [hardErrorOf_decoded hw hi, Option.map_eq_none_iff] at h
      rcases exec_cases ((step_decoded hw hi).symm.trans ht) with ⟨k, a, he, -⟩ | ⟨-, heff⟩
      · exact absurd (h.symm.trans he) nofun
      · rw [diagnosticOf_decoded hw hi]
        exact heff.result_eq s.advance_result
  · simp [hardErrorOf, hw] at h

/-- Settles O10: with an error of the table the step is known whole, and with none its result is `Ok`. -/
theorem hardErrorsAreExact : Obligations.HardErrorsAreExact := by
  intro s t ht
  cases he : hardErrorOf s with
  | none =>
    have hok := step_result_of_no_hardErrorOf he ht
    exact ⟨fun k info => by simp [hok], nofun⟩
  | some e =>
    obtain rfl := Host.Outcome.next.inj ((step_of_hardErrorOf he).symm.trans ht)
    refine ⟨fun k info => ?_, fun k info h => ?_⟩
    · simp [Prod.ext_iff]
    · cases h
      rfl

/-- Settles O11: a step returns an error of the table, or `Ok` with the diagnostic of the table. -/
theorem diagnosticsAreExact : Obligations.DiagnosticsAreExact := by
  intro s t ht d
  cases he : hardErrorOf s with
  | none =>
    rw [step_result_of_no_hardErrorOf he ht]
    simp
  | some e =>
    obtain rfl := Host.Outcome.next.inj ((step_of_hardErrorOf he).symm.trans ht)
    simp

/-! ### What an instruction leaves unchanged (R94) -/

/-- The state after a draw of a byte is the one that counts the draw. -/
@[simp] theorem State.drawByte_snd (s : State) : s.drawByte.2 = s.nextDraw := rfl

/-- Settles O13: a hard error changes the result only; each effect is held against the fields it writes. -/
theorem onlyWritersChangeState : Obligations.OnlyWritersChangeState := by
  intro i s t h
  rcases exec_cases h with ⟨k, a, -, rfl⟩ | ⟨-, heff⟩
  · simp
  cases i with
  | drw x y n =>
    obtain rfl := Host.Outcome.next.inj heff
    rw [State.drawRows_frame]
    simp [Instr.mnemonic]
  | ret =>
    obtain ⟨w, u, hp, rfl⟩ := heff
    rw [(State.pop_some hp).1]
    simp [Instr.mnemonic]
  | call nnn =>
    obtain ⟨u, hp, rfl⟩ := heff
    rw [(State.push_some hp).1]
    simp [Instr.mnemonic]
  | seImm | sneImm | seReg | sneReg =>
    obtain rfl := Host.Outcome.next.inj heff
    simp [State.skipIf_eq]
  | skp x | sknp x =>
    obtain ⟨k, -, rfl⟩ := heff
    simp [State.skipIf_eq]
  | ldVxK x =>
    obtain ⟨-, rfl⟩ | ⟨k, u, hd, rfl⟩ := heff
    · simp
    · rw [(State.drawKey_some hd).2]
      simp
  | ldBVx x =>
    obtain ⟨-, rfl⟩ := heff
    simp [Instr.mnemonic]
  | ldMemVx x =>
    obtain ⟨-, rfl⟩ := heff
    rw [State.storeRegs_frame]
    simp [Instr.mnemonic]
  | ldVxMem x =>
    obtain ⟨-, rfl⟩ := heff
    rw [State.loadRegs_frame]
    simp [Instr.mnemonic]
  | cls | ldI | addIVx | ldFVx | ldDtVx | ldStVx =>
    obtain rfl := Host.Outcome.next.inj heff
    simp [Instr.mnemonic]
  | _ =>
    obtain rfl := Host.Outcome.next.inj heff
    simp

/-- Settles O14: the flag-producing effects write VF and V[x], a block load its block, and every other effect at most V[x]. -/
theorem onlyNamedRegistersChange : Obligations.OnlyNamedRegistersChange := by
  intro i s t r h hr
  rcases exec_cases h with ⟨k, a, -, rfl⟩ | ⟨-, heff⟩
  · rfl
  cases i with
  | ldImm | addImm | ldReg | orReg | andReg | xorReg | rnd | ldVxDt =>
    obtain rfl := Host.Outcome.next.inj heff
    exact State.getV_setV_of_ne _ _ _ _ hr
  | addReg | sub | subn | shr | shl =>
    obtain rfl := Host.Outcome.next.inj heff
    exact State.getV_flag_setV_of_ne _ _ _ _ _ (fun hx => hr (.inl hx)) (fun hf => hr (.inr hf))
  | drw x y n =>
    obtain rfl := Host.Outcome.next.inj heff
    rw [State.getV_setChanged, State.getV_drawRows_ne _ _ _ _ _ hr, State.getV_setV_of_ne _ _ _ _ hr]
  | ret =>
    obtain ⟨w, u, hp, rfl⟩ := heff
    rw [(State.pop_some hp).1]
    rfl
  | call nnn =>
    obtain ⟨u, hp, rfl⟩ := heff
    rw [(State.push_some hp).1]
    rfl
  | seImm | sneImm | seReg | sneReg =>
    obtain rfl := Host.Outcome.next.inj heff
    exact s.getV_skipIf _ r
  | skp x | sknp x =>
    obtain ⟨k, -, rfl⟩ := heff
    exact s.getV_skipIf _ r
  | ldVxK x =>
    obtain ⟨-, rfl⟩ | ⟨k, u, hd, rfl⟩ := heff
    · rfl
    · rw [State.getV_setV_of_ne _ _ _ _ hr, (State.drawKey_some hd).2]
      rfl
  | ldBVx x =>
    obtain ⟨-, rfl⟩ := heff
    rfl
  | ldMemVx x =>
    obtain ⟨-, rfl⟩ := heff
    rw [State.storeRegs_frame]
    rfl
  | ldVxMem x =>
    obtain ⟨-, rfl⟩ := heff
    exact s.getV_loadRegs_of_lt (not_le.mp hr)
  | _ =>
    obtain rfl := Host.Outcome.next.inj heff
    rfl

end Sys2Proof.Machine
end

section
/-! PC after a step (R101), and the free inputs (R37). -/

open Sys2Proof.Claims

namespace Sys2Proof.Machine

/-! ### PC after a step (R101) -/

/-- A skip after the default advance goes 4 bytes on when it is taken, and 2 otherwise. -/
theorem State.skipIf_advance_pc_toNat {s : State} (h : s.pc.toNat + 1 < 4096) (c : Bool) :
    (s.advance.skipIf c).pc.toNat = if c = true then s.pc.toNat + 4 else s.pc.toNat + 2 := by
  have hadv := State.advance_pc_toNat h
  rw [State.skipIf_eq, State.setPc_pc]
  split
  · rw [BitVec.toNat_add, hadv, show (2 : Word).toNat = 2 from rfl]
    omega
  · exact hadv

/-- A hard error is the row of the table that keeps the default advance (D10). -/
theorem pcAfter_of_hardErrorAt {s : State} {w : Word} {i : Instr} {e : ErrKind × Option Nat} (hi : decodeWord w = some i)
    (he : hardErrorAt i s.advance = some e) : pcAfter s w = s.pc.toNat + 2 := by
  cases i with
  | ret =>
    have hsp : s.sp = 0 := (Option.ite_none_right_eq_some.mp he).1
    simp [pcAfter, hi, hsp]
  | call nnn =>
    have hsp : s.sp = 16 := (Option.ite_none_right_eq_some.mp he).1
    simp [pcAfter, hi, hsp]
  | skp x | sknp x =>
    have hk : 16 ≤ (s.getV x).toNat := (Option.ite_none_right_eq_some.mp he).1
    simp [pcAfter, hi, not_lt.mpr hk]
  | ldBVx | ldMemVx | ldVxMem => simp [pcAfter, hi]
  | _ => cases he

/-- The effect of an instruction leaves PC where the table says. -/
theorem Effect.pc_toNat {s t : State} {w : Word} {i : Instr} (hpc : s.pc.toNat + 1 < 4096) (hi : decodeWord w = some i)
    (h : Effect i s.advance t) : t.pc.toNat = pcAfter s w := by
  have hadv := State.advance_pc_toNat hpc
  cases i with
  | jp nnn =>
    obtain rfl := Host.Outcome.next.inj h
    simp [pcAfter, hi]
  | jpV0 nnn =>
    obtain rfl := Host.Outcome.next.inj h
    simp only [pcAfter, hi]
    exact zextByte_add_zextAddr_toNat (s.getV 0) nnn
  | call nnn =>
    obtain ⟨u, hp, rfl⟩ := h
    have hsp : s.sp ≠ 16 := fun e => absurd (((State.push_none s.advance _).mpr e).symm.trans hp) nofun
    simp [pcAfter, hi, hsp]
  | ret =>
    obtain ⟨v, u, hp, rfl⟩ := h
    obtain ⟨-, hsp, hslot⟩ := State.pop_some hp
    rw [State.advance_sp] at hsp
    simp only [pcAfter, hi]
    rw [dif_pos (by omega), hslot ⟨s.sp.val - 1, by omega⟩ (by simp [hsp])]
    rfl
  | seImm | sneImm | seReg | sneReg =>
    obtain rfl := Host.Outcome.next.inj h
    rw [State.skipIf_advance_pc_toNat hpc]
    simp [pcAfter, hi]
  | skp x =>
    obtain ⟨k, hk, rfl⟩ := h
    rw [State.getV_advance] at hk
    obtain ⟨hlt, rfl⟩ : ∃ hlt, k = ⟨(s.getV x).toNat, hlt⟩ := ⟨hk ▸ k.isLt, Fin.ext hk.symm⟩
    simp only [pcAfter, hi]
    rw [State.skipIf_advance_pc_toNat hpc, dif_pos hlt, State.key_advance]
  | sknp x =>
    obtain ⟨k, hk, rfl⟩ := h
    rw [State.getV_advance] at hk
    obtain ⟨hlt, rfl⟩ : ∃ hlt, k = ⟨(s.getV x).toNat, hlt⟩ := ⟨hk ▸ k.isLt, Fin.ext hk.symm⟩
    simp only [pcAfter, hi]
    rw [State.skipIf_advance_pc_toNat hpc, dif_pos hlt, State.key_advance]
    simp only [Bool.not_eq_true']
  | ldVxK x =>
    obtain ⟨hno, rfl⟩ | ⟨k, u, hd, rfl⟩ := h
    · have hno' : ∀ k, s.key k = false := hno
      simp [pcAfter, hi, hno']
    · obtain ⟨hk, hframe⟩ := State.drawKey_some hd
      have hk' : ¬∀ k, s.key k = false := fun hall => absurd hk (by simp [hall k])
      simp only [pcAfter, hi]
      rw [if_neg hk', State.setV_pc, hframe]
      exact hadv
  | drw x y n =>
    obtain rfl := Host.Outcome.next.inj h
    rw [State.drawRows_frame]
    simpa [pcAfter, hi] using hadv
  | ldBVx x =>
    obtain ⟨-, rfl⟩ := h
    simpa [pcAfter, hi] using hadv
  | ldMemVx x =>
    obtain ⟨-, rfl⟩ := h
    rw [State.storeRegs_frame]
    simpa [pcAfter, hi] using hadv
  | ldVxMem x =>
    obtain ⟨-, rfl⟩ := h
    rw [State.loadRegs_frame]
    simpa [pcAfter, hi] using hadv
  | _ =>
    obtain rfl := Host.Outcome.next.inj h
    simpa [pcAfter, hi] using hadv

/-- Settles O12: an unknown word and a hard error keep the default advance, and each effect is held against its row. -/
theorem pcAfterStep : Obligations.PcAfterStep := by
  intro s t w hf ht
  have hw := (fetches_iff s w).mp hf
  cases hi : decodeWord w with
  | none =>
    obtain rfl := Host.Outcome.next.inj ((step_unknown hw hi).symm.trans ht)
    simpa [pcAfter, hi] using State.advance_pc_toNat hf.1
  | some i =>
    rcases exec_cases ((step_decoded hw hi).symm.trans ht) with ⟨k, a, he, rfl⟩ | ⟨-, heff⟩
    · rw [pcAfter_of_hardErrorAt hi he]
      exact State.advance_pc_toNat hf.1
    · exact heff.pc_toNat hf.1 hi

/-! ### The count of draws (R37)

Each operation that draws nothing commutes with a change of the count. -/

/-- The state with another count of draws. -/
def State.withDraws (s : State) (n : Nat) : State := { s with draws := n }

section
variable (s : State) (n : Nat)

theorem State.pop_withDraws {s u : State} {w : Word} (h : s.pop = some (w, u)) :
    (s.withDraws n).pop = some (w, u.withDraws n) := by
  unfold State.pop at h ⊢
  split at h <;> cases h
  exact dif_pos ‹_›

theorem State.push_withDraws {s u : State} {w : Word} (h : s.push w = some u) :
    (s.withDraws n).push w = some (u.withDraws n) := by
  unfold State.push at h ⊢
  split at h <;> cases h
  exact dif_pos ‹_›

theorem State.skipIf_withDraws (c : Bool) : (s.withDraws n).skipIf c = (s.skipIf c).withDraws n := by
  cases c <;> rfl

theorem State.flipPixel_withDraws (px : Fin 64) (py : Fin 32) :
    (s.withDraws n).flipPixel px py = (s.flipPixel px py).withDraws n := by
  have hpixel : (s.withDraws n).pixel px py = s.pixel px py := rfl
  unfold State.flipPixel
  rw [hpixel]
  split <;> rfl

theorem State.drawBits_withDraws (cx : Nat) (py : Fin 32) (row : Byte) (count : Nat) (s : State) (b : Nat) :
    (s.withDraws n).drawBits cx py row b count = (s.drawBits cx py row b count).withDraws n := by
  induction count generalizing s b with
  | zero => rfl
  | succ count ih =>
    rw [State.drawBits, State.drawBits]
    split
    · rw [State.flipPixel_withDraws, ih]
    · exact ih s (b + 1)

theorem State.drawRows_withDraws (cx cy count : Nat) (s : State) (r : Nat) :
    (s.withDraws n).drawRows cx cy r count = (s.drawRows cx cy r count).withDraws n := by
  induction count generalizing s r with
  | zero => rfl
  | succ count ih =>
    have hindex : (s.withDraws n).index = s.index := rfl
    have hmem (a : Nat) : (s.withDraws n).memRead a = s.memRead a := rfl
    rw [State.drawRows, State.drawRows, hindex, hmem]
    split
    · rfl
    · rw [State.drawBits_withDraws, ih]

theorem State.storeRegs_withDraws (l : List Reg) (s : State) :
    (s.withDraws n).storeRegs l = (s.storeRegs l).withDraws n := by
  induction l generalizing s with
  | nil => rfl
  | cons r rest ih => exact ih (s.memWrite (s.effAddr r.val) (s.getV r))

theorem State.loadRegs_withDraws (l : List Reg) (s : State) :
    (s.withDraws n).loadRegs l = (s.loadRegs l).withDraws n := by
  induction l generalizing s with
  | nil => rfl
  | cons r rest ih => exact ih (s.setV r (s.memRead (s.effAddr r.val)))

theorem hardErrorAt_withDraws (i : Instr) : hardErrorAt i (s.withDraws n) = hardErrorAt i s := by
  cases i <;> rfl

end

/-- Settles O17: a hard error is the same error, and each effect commutes with a change of the count. -/
theorem freeInputsReachTwoInstructions : Obligations.FreeInputsReachTwoInstructions := by
  intro i s t n hi h
  change exec i (s.withDraws n) = .next (t.withDraws n)
  rcases exec_cases h with ⟨k, a, he, rfl⟩ | ⟨-, heff⟩
  · exact exec_of_hardErrorAt ((hardErrorAt_withDraws s n i).trans he)
  cases i with
  | rnd | ldVxK => simp [Instr.mnemonic] at hi
  | drw x y m =>
    obtain rfl := Host.Outcome.next.inj heff
    have hrows := State.drawRows_withDraws n (s.getV x).toNat (s.getV y).toNat m (s.setV regF 0) 0
    exact congrArg (fun u => Host.Outcome.next (State.setChanged u true)) hrows
  | ret =>
    obtain ⟨w, u, hp, rfl⟩ := heff
    exact exec_ret_of_pop (State.pop_withDraws n hp)
  | call nnn =>
    obtain ⟨u, hp, rfl⟩ := heff
    exact exec_call_of_push nnn (State.push_withDraws n hp)
  | seImm | sneImm | seReg | sneReg =>
    obtain rfl := Host.Outcome.next.inj heff
    exact congrArg _ (s.skipIf_withDraws n _)
  | skp x =>
    obtain ⟨k, hk, rfl⟩ := heff
    rw [exec_skp_of_key (s := s.withDraws n) x hk, State.skipIf_withDraws]
    rfl
  | sknp x =>
    obtain ⟨k, hk, rfl⟩ := heff
    rw [exec_sknp_of_key (s := s.withDraws n) x hk, State.skipIf_withDraws]
    rfl
  | ldBVx x =>
    obtain ⟨hin, rfl⟩ := heff
    exact exec_ldBVx_of_inside (s := s.withDraws n) x hin
  | ldMemVx x =>
    obtain ⟨hin, rfl⟩ := heff
    rw [exec_ldMemVx_of_inside (s := s.withDraws n) x hin, State.storeRegs_withDraws]
    rfl
  | ldVxMem x =>
    obtain ⟨hin, rfl⟩ := heff
    rw [exec_ldVxMem_of_inside (s := s.withDraws n) x hin, State.loadRegs_withDraws]
    rfl
  | _ =>
    obtain rfl := Host.Outcome.next.inj heff
    rfl

end Sys2Proof.Machine
end

section
/-! The invariant of the state over steps and over host calls (R26, R53, R132, R238): canonical memory, PC at most 4350, stack slots at
most 4096. -/

open Sys2Proof.Claims

namespace Sys2Proof.Machine

/-! ### Steps (R26, R53, R132) -/

/-- The reset state meets the invariant, whatever the font. -/
theorem State.inv_resetWith (font : Font) : (State.resetWith font).Inv := by
  refine ⟨Memory.wf_nil, ?_, fun k => ?_⟩
  · rw [State.resetWith_pc, pcMax_eq]
    decide
  · simp [State.resetWith, Vector.get_eq_getElem]

/-- Settles O18: the default font is one of the fonts. -/
theorem resetMeetsInvariant : Obligations.ResetMeetsInvariant :=
  ⟨State.inv_resetWith defaultFont, State.inv_resetWith⟩

theorem exec_font {i : Instr} {s t : State} (h : exec i s = .next t) : t.font = s.font := by
  obtain ⟨-, hfont, -⟩ := onlyWritersChangeState i s t h
  exact hfont

/-- Only the two stores write memory, and they check their addresses first (R53). -/
theorem exec_keeps_wf {i : Instr} {s t : State} (h : exec i s = .next t) (hs : s.mem.wf s.font) : t.mem.wf t.font := by
  obtain ⟨-, hfont, -, hmem, -⟩ := onlyWritersChangeState i s t h
  by_cases hm : t.mem = s.mem
  · rw [hm, hfont]
    exact hs
  rcases exec_cases h with ⟨k, a, -, rfl⟩ | ⟨-, heff⟩
  · exact hs
  cases i with
  | ldBVx x =>
    obtain ⟨hin, rfl⟩ := heff
    rw [State.effAddr_eq] at hin
    refine Memory.wf_write (Memory.wf_write (Memory.wf_write hs _ ?_) _ ?_) _ ?_ <;> rw [State.effAddr_eq] <;> omega
  | ldMemVx x =>
    obtain ⟨hin, rfl⟩ := heff
    refine State.wf_storeRegs (regBlock x) hs fun r hr => ?_
    have hrx : r.val ≤ x.val := (mem_regBlock x r).mp hr
    rw [State.effAddr_eq] at hin ⊢
    omega
  | _ => exact absurd (hmem hm) (by simp [Instr.mnemonic])

/-- Only `2nnn` writes a stack slot, and the value is the advanced PC (R132). -/
theorem exec_stack_le {i : Instr} {s t : State} (h : exec i s = .next t) (hpc : s.pc.toNat ≤ 4096)
    (hs : ∀ k : Fin 16, (s.stack.get k).toNat ≤ 4096) (k : Fin 16) : (t.stack.get k).toNat ≤ 4096 := by
  obtain ⟨-, -, -, -, hstack, -⟩ := onlyWritersChangeState i s t h
  by_cases hk : t.stack = s.stack
  · rw [hk]
    exact hs k
  rcases exec_cases h with ⟨e, a, -, rfl⟩ | ⟨-, heff⟩
  · exact hs k
  cases i with
  | call nnn =>
    obtain ⟨u, hp, rfl⟩ := heff
    obtain ⟨-, -, hslot⟩ := State.push_some hp
    rw [State.setPc_stack, hslot]
    split
    · exact hpc
    · exact hs k
  | _ => exact absurd (hstack hk) (by simp [Instr.mnemonic])

/-- No row of the table of R101 gives a PC above 4350: the largest is a byte plus a 12-bit address (R26). -/
theorem pcAfter_le {s : State} (hpc : s.pc.toNat + 1 < 4096) (hs : ∀ k : Fin 16, (s.stack.get k).toNat ≤ 4096)
    (w : Word) : pcAfter s w ≤ pcMax := by
  rw [pcMax_eq]
  cases hi : decodeWord w with
  | none => simp only [pcAfter, hi]; omega
  | some i =>
    cases i with
    | jp nnn => simp only [pcAfter, hi]; omega
    | jpV0 nnn => simp only [pcAfter, hi]; omega
    | ret =>
      simp only [pcAfter, hi]
      split
      · exact Nat.le_trans (hs _) (by decide)
      · omega
    | call | seImm | sneImm | seReg | sneReg | ldVxK =>
      simp only [pcAfter, hi]
      split <;> omega
    | skp | sknp =>
      simp only [pcAfter, hi]
      split
      · split <;> omega
      · omega
    | _ => simp only [pcAfter, hi]; omega

/-- Settles O19: PC by the table of R101, memory and the stack by their writers. -/
theorem stepKeepsInvariant : Obligations.StepKeepsInvariant := by
  rintro s t ⟨hwf, hpcMax, hstack⟩ ht
  rcases s.fetch_cases with ⟨w, hw, hpc⟩ | ⟨hw, -⟩
  · have htpc : t.pc.toNat ≤ pcMax := by
      rw [pcAfterStep s t w ((fetches_iff s w).mpr hw) ht]
      exact pcAfter_le hpc hstack w
    cases hi : decodeWord w with
    | none =>
      obtain rfl := Host.Outcome.next.inj ((step_unknown hw hi).symm.trans ht)
      exact ⟨hwf, htpc, hstack⟩
    | some i =>
      have hexec := (step_decoded hw hi).symm.trans ht
      have hadv : s.advance.pc.toNat ≤ 4096 := by
        rw [State.advance_pc_toNat hpc]
        omega
      exact ⟨exec_keeps_wf hexec hwf, htpc, exec_stack_le hexec hadv hstack⟩
  · obtain rfl := Host.Outcome.next.inj ((step_fetch_none hw).symm.trans ht)
    exact ⟨hwf, hpcMax, hstack⟩

/-- A step keeps the parameter FONT (R8). -/
theorem step_font {s t : State} (h : step s = .next t) : t.font = s.font := by
  rcases s.fetch_cases with ⟨w, hw, -⟩ | ⟨hw, -⟩
  · cases hi : decodeWord w with
    | none =>
      obtain rfl := Host.Outcome.next.inj ((step_unknown hw hi).symm.trans h)
      rfl
    | some i => exact (exec_font ((step_decoded hw hi).symm.trans h)).trans s.advance_font
  · obtain rfl := Host.Outcome.next.inj ((step_fetch_none hw).symm.trans h)
    rfl

/-! ### Host calls (R233, R238) -/

/-- What a session keeps: its font, and the invariant once it has a state. -/
def Session.Keeps (font : Font) : Session → Prop
  | .unset f => f = font
  | .ready s => s.Inv ∧ s.font = font

/-- A load writes at most 3584 bytes from 0x200, which lie inside memory (R252). -/
theorem State.loadRom_inv {s : State} (h : s.Inv) (bytes : List Byte) : (s.loadRom bytes).1.Inv := by
  obtain ⟨hwf, hpc, hstack⟩ := h
  have hlen : Config.progBase + (bytes.take Config.romMax).length ≤ 4096 := by
    rw [List.length_take, Config.progBase_eq, Config.romMax_eq]
    omega
  refine ⟨State.wf_writeBytes _ hwf hlen, ?_, ?_⟩ <;> rw [State.loadRom, State.writeBytes_frame]
  · exact hpc
  · exact hstack

/-- A call on an initialized core keeps the invariant and the font. -/
theorem State.serve_keeps {s : State} {c : HostCall} {m : Session} {r : Reply} (hs : s.Inv)
    (h : s.serve c = .next (m, r)) : m.Keeps s.font := by
  cases c with
  | initCore =>
    cases h
    exact ⟨State.inv_resetWith s.font, rfl⟩
  | loadRom bytes =>
    cases bytes with
    | none =>
      cases h
      exact ⟨hs, rfl⟩
    | some bytes =>
      cases h
      exact ⟨State.loadRom_inv hs bytes, State.writeBytes_font ..⟩
  | step =>
    obtain ⟨t, ht⟩ := everyStepAnswersNext s
    simp only [State.serve, ht] at h
    cases h
    exact ⟨stepKeepsInvariant s t hs ht, step_font ht⟩
  | setKey index pressed =>
    cases h
    unfold State.setKey
    split <;> exact ⟨hs, rfl⟩
  | pixelAt px py =>
    simp only [State.serve] at h
    split at h <;> cases h
    exact ⟨hs, rfl⟩
  | tick | displayChanged | clearChanged | soundActive =>
    cases h
    exact ⟨hs, rfl⟩

theorem Session.call_keeps {font : Font} {m n : Session} {c : HostCall} {r : Reply} (hm : m.Keeps font)
    (h : m.call c = .next (n, r)) : n.Keeps font := by
  cases m with
  | unset f =>
    cases c <;> cases h
    exact ⟨State.inv_resetWith f, hm⟩
  | ready s =>
    obtain ⟨hs, rfl⟩ := hm
    exact State.serve_keeps hs h

theorem Session.calls_keeps {font : Font} (calls : List HostCall) {m n : Session} (hm : m.Keeps font)
    (h : m.calls calls = .next n) : n.Keeps font := by
  induction calls generalizing m with
  | nil =>
    cases h
    exact hm
  | cons c rest ih =>
    unfold Session.calls at h
    split at h
    · next hc => exact ih (Session.call_keeps hm hc) h
    · cases h
    · cases h

/-- Settles O20: one call by `State.serve_keeps`, and a list of calls by induction from the unset session. -/
theorem hostCallsKeepInvariant : Obligations.HostCallsKeepInvariant :=
  ⟨fun _ _ _ _ hs h => State.serve_keeps hs h, fun _ calls _ h => Session.calls_keeps calls (m := .unset _) rfl h⟩

end Sys2Proof.Machine
end

section
/-! The host operations of spec/60_exceptions.md and spec/70_reset_and_hazards.md: `setKey` (R213), `loadRom` (R252, R253),
the reset call (R250), the boot (R255), the reads (R211, R236), and the calls on an unset session (R256). -/

namespace Sys2Proof.Machine

/-! ### setKey (R213) -/

/-- `setKey` on a key of the keypad. -/
theorem State.setKey_of_key (s : State) (k : Fin 16) (p : Bool) : s.setKey k.val p = (s.setKeyBit k p, .ok) := by
  have hk : (0 : Int) ≤ k.val ∧ (k.val : Int) < 16 := by omega
  rw [State.setKey, dif_pos hk]
  rfl

/-- `setKey` on any other index. -/
theorem State.setKey_of_bad (s : State) {i : Int} (p : Bool) (h : i < 0 ∨ 16 ≤ i) :
    s.setKey i p = (s, .invalidKey i) := by
  rw [State.setKey, dif_neg (by omega)]

/-- What the host call `setKey` does on an initialized core (R233). -/
theorem Session.call_setKey (s : State) (i : Int) (p : Bool) :
    (Session.ready s).call (.setKey i p) = .next (.ready (s.setKey i p).1, .keyed (s.setKey i p).2) := rfl

/-- Settles O54: a valid index writes its key, and any other gives the state back. -/
theorem setKeyWritesOneKey : Obligations.SetKeyWritesOneKey := by
  refine ⟨fun s k p => ⟨s.setKeyBit k p, ?_, ?_, fun j hj => ?_, rfl⟩, fun s i p h => ?_⟩
  · rw [Session.call_setKey, State.setKey_of_key]
  · rw [State.key_setKeyBit, if_pos rfl]
  · rw [State.key_setKeyBit, if_neg hj]
  · rw [Session.call_setKey, State.setKey_of_bad s p h]

/-! ### loadRom (R252, R253) -/

/-- What the host call `loadRom` does on an initialized core, with bytes (R233). -/
theorem Session.call_loadRom (s : State) (bytes : List Byte) :
    (Session.ready s).call (.loadRom (some bytes)) = .next (.ready (s.loadRom bytes).1, .loaded (s.loadRom bytes).2) :=
  rfl

/-- A load changes memory only (D20). -/
theorem State.loadRom_frame (s : State) (bytes : List Byte) :
    (s.loadRom bytes).1 = { s with mem := (s.loadRom bytes).1.mem } :=
  State.writeBytes_frame ..

/-- Each byte of the image up to the 3584th stands at its place (R252). -/
theorem State.memRead_loadRom (s : State) {bytes : List Byte} {k : Nat} (h : k < bytes.length) (hk : k < 3584) :
    (s.loadRom bytes).1.memRead (0x200 + k) = bytes[k] := by
  have hoffset : 0x200 + k - Config.progBase = k := by
    rw [Config.progBase_eq]
    omega
  have hin : Config.progBase ≤ 0x200 + k ∧ 0x200 + k - Config.progBase < (bytes.take Config.romMax).length := by
    rw [hoffset, List.length_take, Config.progBase_eq, Config.romMax_eq]
    omega
  rw [State.loadRom, State.memRead_writeBytes, dif_pos hin, List.getElem_take]
  simp only [hoffset]

/-- Every byte outside the image is left alone (R252). -/
theorem State.memRead_loadRom_of_outside (s : State) {bytes : List Byte} {a : Nat}
    (h : a < 0x200 ∨ 0x200 + min bytes.length 3584 ≤ a) : (s.loadRom bytes).1.memRead a = s.memRead a := by
  have hout : ¬(Config.progBase ≤ a ∧ a - Config.progBase < (bytes.take Config.romMax).length) := by
    rw [List.length_take, Config.progBase_eq, Config.romMax_eq]
    omega
  rw [State.loadRom, State.memRead_writeBytes, dif_neg hout]

theorem State.loadRom_result (s : State) (bytes : List Byte) :
    (s.loadRom bytes).2 = if bytes.length > 3584 then .romTooLarge bytes.length else .ok := rfl

/-- Settles O55, from the reads of a loaded memory inside and outside the image. -/
theorem loadRomCopiesImage : Obligations.LoadRomCopiesImage := by
  refine ⟨fun s bytes => ⟨_, _, Session.call_loadRom s bytes, fun k h hk => s.memRead_loadRom h hk,
    fun a ha => s.memRead_loadRom_of_outside ha, fun h => ?_, fun h => ?_, s.loadRom_frame bytes⟩, fun s => rfl⟩
  · rw [State.loadRom_result, if_neg (not_lt.mpr h)]
  · rw [State.loadRom_result, if_pos h]

/-! ### The reset call and the boot (R250, R255) -/

/-- What the reset call leaves: the reset state of the session's font, but for the count of draws (R250, log entry 5). -/
theorem Session.call_initCore (m : Session) :
    ∃ n, m.call .initCore = .next (.ready { State.resetWith m.font with draws := n }, .nothing) := by
  cases m with
  | unset font => exact ⟨0, rfl⟩
  | ready s => exact ⟨s.draws, rfl⟩

/-- Settles O57: each clause reads a field of the reset state, whose empty memory reads as unlisted. -/
theorem initializeResets : Obligations.InitializeResets := by
  intro m
  obtain ⟨n, h⟩ := Session.call_initCore m
  refine ⟨_, h, State.getV_resetWith m.font, rfl, rfl, fun k => ?_, rfl, rfl, rfl, State.pixel_resetWith m.font, rfl,
    State.key_resetWith m.font, rfl, fun a ha => ?_, fun a ha => Memory.unlisted_zero ha⟩
  · simp [State.resetWith, Vector.get_eq_getElem]
  · exact dif_pos ha

/-- Settles O56: the two bytes the first fetch reads are the first two of the image. -/
theorem bootRunsImage : Obligations.BootRunsImage := by
  intro m hi lo rest
  obtain ⟨n, h⟩ := Session.call_initCore m
  refine ⟨(State.loadRom { State.resetWith m.font with draws := n } (hi :: lo :: rest)).1, ?_, ?_, ?_⟩
  · simp only [Session.calls, h, Session.call_loadRom]
  · rw [State.loadRom_frame]
    rfl
  · have hpc : (State.loadRom { State.resetWith m.font with draws := n } (hi :: lo :: rest)).1.pc.toNat = 0x200 := by
      rw [State.loadRom_frame]
      rfl
    rw [State.fetchWord_some _ (by rw [hpc]; decide), hpc]
    have hhi := State.memRead_loadRom { State.resetWith m.font with draws := n } (bytes := hi :: lo :: rest) (k := 0)
      (by simp) (by decide)
    have hlo := State.memRead_loadRom { State.resetWith m.font with draws := n } (bytes := hi :: lo :: rest) (k := 1)
      (by simp) (by decide)
    rw [hhi, hlo]
    rfl

/-! ### Reads, and calls on an unset session (R211, R236, R256) -/

/-- Settles O59: the bound of `pixelAt` decides between its two answers. -/
theorem hostReadsChangeNothing : Obligations.HostReadsChangeNothing := by
  refine fun s => ⟨fun px py => ?_, fun px py h => ?_, s.soundActive, rfl, ?_⟩
  · exact dif_pos ⟨px.isLt, py.isLt⟩
  · exact dif_neg (by omega)
  · simp [State.soundActive]

/-- Settles O60: an unset session answers the reset call only. -/
theorem nothingBeforeInitialize : Obligations.NothingBeforeInitialize := by
  intro font c h
  cases c with
  | initCore => exact absurd rfl h
  | _ => rfl

end Sys2Proof.Machine
end

section
/-! Runs of steps: no step reads an earlier result (R98), and the states no step leaves: after a fetch error (R262), parked (R265), and
waiting for a key (R231). -/

open Sys2Proof.Claims

namespace Sys2Proof.Machine

/-! ### Runs -/

/-- A run begins with one step. -/
theorem core_run_of_step {s t : State} (h : step s = .next t) (n : Nat) : core.run (n + 1) s = core.run n t := by
  have hcore : core.step s = .next t := h
  simp only [Host.Core.run, hcore]

/-- A step that leads to a state no step changes: every longer run ends there too. -/
theorem core_run_of_fixed {s t : State} (hs : step s = .next t) (ht : step t = .next t) (n : Nat) :
    core.run (n + 1) s = .next t := by
  induction n generalizing s with
  | zero => exact core_run_of_step hs 0
  | succ n ih => exact (core_run_of_step hs (n + 1)).trans (ih ht)

/-- A step reads no earlier result: a fetch does not, and both ends of one begin the result anew (R98). -/
theorem step_ignores_result (s : State) (r : StepResult) : step { s with result := r } = step s := rfl

/-- Settles O16: the first step leads to the same state. -/
theorem runsIgnoreLastResult : Obligations.RunsIgnoreLastResult := by
  intro n s r
  obtain ⟨t, ht⟩ := everyStepAnswersNext s
  rw [core_run_of_step ht, core_run_of_step ((step_ignores_result s r).trans ht)]

/-! ### States that no step leaves (R231, R262, R265) -/

/-- Settles O21: the error leaves PC, so the next fetch fails with the same error. -/
theorem fetchErrorIsPermanent : Obligations.FetchErrorIsPermanent := by
  intro s n h
  obtain ⟨hstep, -⟩ := fetchChecksThenReads
  exact core_run_of_fixed (hstep s (by omega)) (hstep { s with result := _ } (by simpa using h)) n

/-- One step of a parked state gives it back, with the result `Ok(none)`: the target is PC itself (R265). -/
theorem step_of_parked {s : State} (h : s.Parked) : step s = .next { s with result := .ok none } := by
  obtain ⟨nnn, hw, hpc⟩ := h
  have htarget : zextAddr nnn = s.pc := BitVec.eq_of_toNat_eq ((zextAddr_toNat nnn).trans hpc.symm)
  rw [step_decoded hw (decodeWord_encodeWord (i := .jp nnn) rfl), exec_jp, htarget]
  rfl

/-- Settles O22: the state after the first step is parked at the same jump. -/
theorem parkedStateStays : Obligations.ParkedStateStays :=
  fun s n h => core_run_of_fixed (step_of_parked h) (step_of_parked (s := { s with result := .ok none }) h) n

/-- One step of the key wait with no key pressed gives the state back, with the result `Ok(none)` (R206). -/
theorem step_of_waiting {x : Reg} {s : State} (hw : s.fetchWord = some (encodeWord (.ldVxK x)))
    (hno : ∀ k, s.key k = false) : step s = .next { s with result := .ok none } := by
  have hback : s.advance.pc - 2 = s.pc := BitVec.add_sub_cancel s.pc 2
  rw [step_decoded hw (decodeWord_encodeWord (i := .ldVxK x) rfl), exec_ldVxK_of_none x (s := s.advance) hno, hback]
  rfl

/-- Settles O51: with no key the wait is a state no step leaves, and after one key is set, that key is the only one to draw. -/
theorem keyWaitHoldsUntilKey : Obligations.KeyWaitHoldsUntilKey := by
  intro x s hw hno
  refine ⟨core_run_of_fixed (step_of_waiting hw hno) (step_of_waiting (s := { s with result := .ok none }) hw hno),
    fun k => ?_⟩
  have hw' : (s.setKeyBit k true).fetchWord = some (encodeWord (.ldVxK x)) := hw
  have hpressed : (s.setKeyBit k true).advance.key k = true := by
    rw [State.key_advance, State.key_setKeyBit, if_pos rfl]
  obtain ⟨j, u, hd⟩ := State.exists_drawKey ⟨k, hpressed⟩
  obtain ⟨hj, hframe⟩ := State.drawKey_some hd
  have hjk : j = k := by
    by_contra hne
    rw [State.key_advance, State.key_setKeyBit, if_neg hne, hno j] at hj
    cases hj
  refine ⟨u.setV x (BitVec.ofNat 8 j.val), ?_, ?_, ?_⟩
  · rw [State.setKey_of_key, step_decoded hw' (decodeWord_encodeWord (i := .ldVxK x) rfl), exec_ldVxK_of_some x hd]
  · rw [State.getV_setV_self, ofNat_key_toNat, hjk]
  · rw [State.setV_pc, hframe]
    exact State.advance_pc_toNat ((fetches_iff s _).mpr hw).1

end Sys2Proof.Machine
end
